-- ==== Sys2Proof/Word.lean ====
section
/-! DEFINITION. Word: the Bit alphabet and the bit sequence, the only values the engine has (spec/40_substrate.md R80,
spec/00_scope.md R9, R10). -/

namespace Sys2Proof

/-- R80: "A Bit is one of two values, ZERO and ONE." -/
inductive Bit
  | zero
  | one
  deriving DecidableEq, Repr

/-- R80: as a number, ZERO is 0 and ONE is 1. -/
def Bit.toNat : Bit → Nat
  | .zero => 0
  | .one => 1

/-- The Bit that a truth value stands for, ONE for true. -/
def Bit.ofBool : Bool → Bit
  | true => .one
  | false => .zero

/-- R10: a bit-vector in the sequence view. Element 0 is the MOST significant bit (spec decision D1). The width of a
register, key, block or address is the length of its sequence: widths are construction parameters (R6), so the width is
a fact about the value (an invariant of State), not part of its type. -/
abbrev Bits := List Bit

/-- The all-ZERO value of width `w`. -/
def zeros (w : Nat) : Bits := List.replicate w .zero

end Sys2Proof
end

