-- ==== Sys2Proof/Config.lean ====
section
/-! DEFINITION. Config: the construction parameters (spec/00_scope.md R6-R8, spec/10_state.md R21), the record form in which
they stand in a snapshot (spec/30_encoding.md R66, R73), and the one open parameter, MONITOR_FORMAT. -/

namespace Sys2Proof

/-- R1, R6: the three variants of the engine. -/
inductive Variant
  | gag
  | gas
  | sag
  deriving DecidableEq, Repr

/-- R21: the read-only configuration record `CFG`. The widths are natural numbers without an upper bound (R6, I2). The
hash mode is kept as its 2-bit code (R73), because a GAg engine may be built with any code (R154). -/
structure Config where
  /-- `VARIANT` -/
  variant : Variant
  /-- `HIST_W`, B: the width of every history register. -/
  histW : Nat
  /-- `CTR_W`, S: the width of every saturating counter. -/
  ctrW : Nat
  /-- `ADDR_W`, N: the width of the branch address. -/
  addrW : Nat
  /-- `HASH_W`, K: the width of the hash output. -/
  hashW : Nat
  /-- `HASH_MODE`, as its code; `00` is XOR. -/
  hashMode : BitVec 2
  deriving DecidableEq, Repr

/-- R8: the table key width TKW. -/
def Config.tableKeyW (c : Config) : Nat :=
  match c.variant with
  | .gag => c.histW
  | .gas => c.hashW + c.histW
  | .sag => c.histW

/-- The key width of the bank of history registers. SAg: K (R91). GAg and GAs: 0, the reading that R20 allows, "a bank of
2^0 = 1 history register". -/
def Config.bankKeyW (c : Config) : Nat :=
  match c.variant with
  | .gag => 0
  | .gas => 0
  | .sag => c.hashW

/-- R6 and the checks 2 to 4 of R158: the legal values of the parameters. GAg checks neither K nor HASH_MODE (R7). -/
abbrev Config.Legal (c : Config) : Prop :=
  1 ≤ c.histW ∧ 1 ≤ c.ctrW ∧ 1 ≤ c.addrW ∧
    (c.variant ≠ .gag → (1 ≤ c.hashW ∧ c.hashW ≤ c.addrW) ∧ c.hashMode = 0#2)

/-- The configuration of `State.reset`. DESIGN CHOICE (log 1, unsafe): R21 gives CFG no reset value and R6 no default; this
is the first engine of spec/95_test_vectors.md V10, GAg with B = 2, S = 2, N = 4, K = 2, XOR. Every general statement
about the model is made for all configurations, not for this one. -/
def Config.elaborated : Config :=
  { variant := .gag, histW := 2, ctrW := 2, addrW := 4, hashW := 2, hashMode := 0#2 }

/-- R73: a configuration as codes and numbers. It is what a host asks for at construction (R158), with VARIANT code `11`
possible, and what MON shows of CFG (R66). -/
structure CfgRecord where
  variant : BitVec 2
  histW : Nat
  ctrW : Nat
  addrW : Nat
  hashW : Nat
  hashMode : BitVec 2
  deriving DecidableEq, Repr

/-- R66: the snapshot `MON`: CFG with its codes; BHR alone (GAg, GAs) or the 2^K registers of PSBHR in key order (SAg);
the 2^TKW blocks of the table in slot order. -/
structure Snapshot where
  cfg : CfgRecord
  history : List Bits
  table : List Bits
  deriving DecidableEq, Repr

/-- `MONITOR_FORMAT` (R140, D22, I1): how a snapshot is rendered as text. OPEN in the spec, so it has no body: nothing can
be proved of the text, and no rule and no claim may depend on it (log 8, safe). -/
opaque Config.monitorFormat : Snapshot → String

end Sys2Proof
end

