-- ==== Sys2Proof/Syntax.lean ====
section
/-! DEFINITION. Syntax: the commands (spec/30_encoding.md R62) and the micro-operations (R69) of spec/opcode_table.json, and
the requests in which they are encoded (R60, R61, R68). -/

namespace Sys2Proof

/-- The outcome of a branch (spec/00_scope.md, glossary: BranchResult). -/
inductive BranchResult
  | taken
  | notTaken
  deriving DecidableEq, Repr

/-- One constructor per operation of spec/opcode_table.json. The table gives PREDICT and UPDATE three rows each, one per
VARIANT, with the same words: "Which rule applies is decided by CFG.VARIANT, not by the command word" (R62), so each is
one constructor and its meaning chooses the row (log 9). A micro-operation is no command and no port issues it (R68); its
operands are those of its rule in spec/40_substrate.md (log 3). -/
inductive Instr
  /-- PREDICT, CMD 00x: R121, R124, R126. -/
  | predict (addr : Bits)
  /-- UPDATE, CMD 01T: R122, R125, R127. -/
  | update (addr : Bits) (actual : BranchResult)
  /-- MONITOR, CMD 10x: R140. -/
  | monitor
  /-- RESET, CMD 11x: R141. -/
  | reset
  /-- BIT_XOR, UOP 0000: R83. A Bit is a sequence of one. -/
  | bitXor (a b : Bits)
  /-- TO_NUMBER, UOP 0001: R84. -/
  | toNumber (s : Bits)
  /-- SR_READ, UOP 0010: R87. `reg` numbers the ShiftRegister. -/
  | srRead (reg : Bits)
  /-- SR_SHIFT, UOP 0011: R88. -/
  | srShift (reg : Bits) (b : Bit)
  /-- SR_SET, UOP 0100: R89. -/
  | srSet (reg : Bits) (values : Bits)
  /-- RB_READ, UOP 0101: R92. -/
  | rbRead (key : Bits)
  /-- RB_INSERT, UOP 0110: R93. -/
  | rbInsert (key : Bits) (b : Bit)
  /-- CTR_INC, UOP 0111: R96. -/
  | ctrInc (c : Bits)
  /-- CTR_DEC, UOP 1000: R97. -/
  | ctrDec (c : Bits)
  /-- CTR_PRED, UOP 1001: R98. -/
  | ctrPred (c : Bits)
  /-- CACHE_READ, UOP 1010: R103. -/
  | cacheRead (key : Bits)
  /-- CACHE_WRITE, UOP 1011: R104. -/
  | cacheWrite (key : Bits) (block : Bits)
  /-- CACHE_UPDATE, UOP 1100: R105. -/
  | cacheUpdate (key : Bits) (block : Bits)
  /-- HASH_XOR, UOP 1101: R108. -/
  | hashXor (addr : Bits)
  /-- CONCAT, UOP 1110: R85. -/
  | concat (a b : Bits)
  /-- BIT_CMP, UOP 1111: R81. -/
  | bitCmp (a b : Bit)
  deriving DecidableEq, Repr

/-- R62, R68: the commands are the operations the host can issue at the CMD port. -/
def Instr.isCommand : Instr → Bool
  | .predict _ => true
  | .update _ _ => true
  | .monitor => true
  | .reset => true
  | .bitXor _ _ => false
  | .toNumber _ => false
  | .srRead _ => false
  | .srShift _ _ => false
  | .srSet _ _ => false
  | .rbRead _ => false
  | .rbInsert _ _ => false
  | .ctrInc _ => false
  | .ctrDec _ => false
  | .ctrPred _ => false
  | .cacheRead _ => false
  | .cacheWrite _ _ => false
  | .cacheUpdate _ _ => false
  | .hashXor _ => false
  | .concat _ _ => false
  | .bitCmp _ _ => false

/-- What the engine is given to execute next: a command at the ports CMD and ADDR (R60, R61), or a micro-operation code
(R68) with its operand list, which no port carries and which the model issues for its own use (log 3). -/
inductive Request
  /-- `CMD[2:0]` with `ADDR`, a Bit list of any length (R64: "a model that represents an address as a bit list"). -/
  | command (cmd : BitVec 3) (addr : Bits)
  /-- `UOP[3:0]` with the values of its operands, in the order of its rule. -/
  | micro (uop : BitVec 4) (operands : List Bits)
  deriving DecidableEq, Repr

/-- A request that the host can make at the ports of R60. -/
def Request.isCommand : Request → Bool
  | .command _ _ => true
  | .micro _ _ => false

end Sys2Proof
end

