-- ==== Sys2Proof/WellFormed.lean ====
section
/-! DEFINITION. WellFormed: the widths that the rules of spec/40_substrate.md and spec/41_predictors.md ask of an operation's
operands in an engine with configuration `cfg`. An ill-formed operand is not outside the model: most of them raise
LengthMismatch (spec/60_exceptions.md R152), and the meanings say so. -/

namespace Sys2Proof

/-- The widths of the operands are those the configuration gives (R44, R64, R83, R87-R89, R92, R93, R95, R98, R103-R105,
R108). -/
def WellFormed (cfg : Config) : Instr → Bool
  | .predict addr => addr.length == cfg.addrW
  | .update addr _ => addr.length == cfg.addrW
  | .monitor => true
  | .reset => true
  | .bitXor a b => a.length == b.length
  | .toNumber _ => true
  | .srRead reg => reg.length == cfg.bankKeyW
  | .srShift reg _ => reg.length == cfg.bankKeyW
  | .srSet reg values => reg.length == cfg.bankKeyW && values.length == cfg.histW
  | .rbRead key => key.length == cfg.bankKeyW
  | .rbInsert key _ => key.length == cfg.bankKeyW
  | .ctrInc c => c.length == cfg.ctrW
  | .ctrDec c => c.length == cfg.ctrW
  | .ctrPred c => c.length == cfg.ctrW
  | .cacheRead key => key.length == cfg.tableKeyW
  | .cacheWrite key block => key.length == cfg.tableKeyW && block.length == cfg.ctrW
  | .cacheUpdate key block => key.length == cfg.tableKeyW && block.length == cfg.ctrW
  | .hashXor addr => addr.length == cfg.addrW
  | .concat _ _ => true
  | .bitCmp _ _ => true

end Sys2Proof
end

