-- ==== Sys2Proof/Decode.lean ====
section
/-! DEFINITION. Decode: from a request to the operation it selects, total, refusing by name; then the encoder
(spec/30_encoding.md R61-R64, R67-R70), and the host's one-number view of spec/opcode_table.json's words. -/

namespace Sys2Proof

/-- Why a request selects no operation. No CMD word is illegal (R67) and no UOP code is reserved (R69), so the one reason
is a micro-operation whose operand list does not have the shape of its rule. Safe: the model stops. -/
inductive DecodeError
  | operandShape (uop : BitVec 4)
  deriving DecidableEq, Repr

/-- R61: `OP = CMD[2:1]`. -/
def cmdOp (cmd : BitVec 3) : BitVec 2 := cmd.extractLsb' 1 2

/-- R61: `T = CMD[0]`. -/
def cmdT (cmd : BitVec 3) : Bool := cmd.getLsbD 0

/-- R63: `T = 1` means TAKEN and `T = 0` means NOT_TAKEN. -/
def outcomeOfT (t : Bool) : BranchResult := if t then .taken else .notTaken

/-- R63: the field `T` of an outcome. -/
def tOfOutcome : BranchResult → Bool
  | .taken => true
  | .notTaken => false

/-- R62, R67: every CMD word selects a command. `T` is read by UPDATE only (R63), `ADDR` by PREDICT and UPDATE (R64). -/
def decodeCommand (cmd : BitVec 3) (addr : Bits) : Instr :=
  match (cmdOp cmd).toNat with
  | 0 => .predict addr
  | 1 => .update addr (outcomeOfT (cmdT cmd))
  | 2 => .monitor
  | _ => .reset

/-- R69: the sixteen micro-operation codes, each with the operands of its rule. -/
def decodeMicro (uop : BitVec 4) (operands : List Bits) : Option Instr :=
  match uop.toNat, operands with
  | 0, [a, b] => some (.bitXor a b)
  | 1, [s] => some (.toNumber s)
  | 2, [reg] => some (.srRead reg)
  | 3, [reg, [b]] => some (.srShift reg b)
  | 4, [reg, values] => some (.srSet reg values)
  | 5, [key] => some (.rbRead key)
  | 6, [key, [b]] => some (.rbInsert key b)
  | 7, [c] => some (.ctrInc c)
  | 8, [c] => some (.ctrDec c)
  | 9, [c] => some (.ctrPred c)
  | 10, [key] => some (.cacheRead key)
  | 11, [key, block] => some (.cacheWrite key block)
  | 12, [key, block] => some (.cacheUpdate key block)
  | 13, [addr] => some (.hashXor addr)
  | 14, [a, b] => some (.concat a b)
  | 15, [[a], [b]] => some (.bitCmp a b)
  | _, _ => none

/-- The operation a request selects. -/
def decode : Request → Except DecodeError Instr
  | .command cmd addr => .ok (decodeCommand cmd addr)
  | .micro uop operands =>
    match decodeMicro uop operands with
    | some i => .ok i
    | none => .error (.operandShape uop)

/-- R61: the command word `OP ++ T`. -/
def cmdWord (op : BitVec 2) (t : Bool) : BitVec 3 := op ++ BitVec.ofBool t

/-- The request that stands for an operation at an engine with `addrW` address bits. An ignored bit is 0 (R71: "An ignored
bit x assembles to 0"; V9 writes the ignored ADDR as ZEROs). -/
def encode (addrW : Nat) : Instr → Request
  | .predict addr => .command (cmdWord 0b00#2 false) addr
  | .update addr actual => .command (cmdWord 0b01#2 (tOfOutcome actual)) addr
  | .monitor => .command (cmdWord 0b10#2 false) (zeros addrW)
  | .reset => .command (cmdWord 0b11#2 false) (zeros addrW)
  | .bitXor a b => .micro 0b0000#4 [a, b]
  | .toNumber s => .micro 0b0001#4 [s]
  | .srRead reg => .micro 0b0010#4 [reg]
  | .srShift reg b => .micro 0b0011#4 [reg, [b]]
  | .srSet reg values => .micro 0b0100#4 [reg, values]
  | .rbRead key => .micro 0b0101#4 [key]
  | .rbInsert key b => .micro 0b0110#4 [key, [b]]
  | .ctrInc c => .micro 0b0111#4 [c]
  | .ctrDec c => .micro 0b1000#4 [c]
  | .ctrPred c => .micro 0b1001#4 [c]
  | .cacheRead key => .micro 0b1010#4 [key]
  | .cacheWrite key block => .micro 0b1011#4 [key, block]
  | .cacheUpdate key block => .micro 0b1100#4 [key, block]
  | .hashXor addr => .micro 0b1101#4 [addr]
  | .concat a b => .micro 0b1110#4 [a, b]
  | .bitCmp a b => .micro 0b1111#4 [[a], [b]]

/-- The all-ZERO operands of a micro-operation, of the widths that `cfg` gives them. -/
def zeroOperands (cfg : Config) (uop : BitVec 4) : List Bits :=
  match uop.toNat with
  | 0 => [[.zero], [.zero]]
  | 1 => [[.zero]]
  | 2 => [zeros cfg.bankKeyW]
  | 3 => [zeros cfg.bankKeyW, [.zero]]
  | 4 => [zeros cfg.bankKeyW, zeros cfg.histW]
  | 5 => [zeros cfg.bankKeyW]
  | 6 => [zeros cfg.bankKeyW, [.zero]]
  | 7 => [zeros cfg.ctrW]
  | 8 => [zeros cfg.ctrW]
  | 9 => [zeros cfg.ctrW]
  | 10 => [zeros cfg.tableKeyW]
  | 11 => [zeros cfg.tableKeyW, zeros cfg.ctrW]
  | 12 => [zeros cfg.tableKeyW, zeros cfg.ctrW]
  | 13 => [zeros cfg.addrW]
  | 14 => [[.zero], [.zero]]
  | _ => [[.zero], [.zero]]

/-- The request whose table word is `w`, with operands of ZEROs. The table numbers two separate code spaces from 0: the
3-bit CMD words, which the engine has a port for, and the 4-bit UOP codes, which it has none for (R68). A number below 8 is
a CMD word; a number from 8 to 15 is no CMD word and is read as a UOP code; a caller that gives the UOP's exact width, 4,
gets the UOP code for every number (log 10). -/
def tableRequest (cfg : Config) (nbits w : Nat) : Option Request :=
  if nbits = 4 ∧ w < 16 then some (.micro (BitVec.ofNat 4 w) (zeroOperands cfg (BitVec.ofNat 4 w)))
  else if w < 8 then some (.command (BitVec.ofNat 3 w) (zeros cfg.addrW))
  else if w < 16 then some (.micro (BitVec.ofNat 4 w) (zeroOperands cfg (BitVec.ofNat 4 w)))
  else none

/-- The operation the decoder reads from a table word, in the engine of `State.reset`. -/
def decodeTableWord (nbits w : Nat) : Option Instr :=
  match tableRequest Config.elaborated nbits w with
  | some r =>
    match decode r with
    | .ok i => some i
    | .error _ => none
  | none => none

end Sys2Proof
end

