-- ==== Sys2Proof/Machine/State.lean ====
section
/-! DEFINITION. State: the engine's state (spec/10_state.md R20-R25), its ports (spec/30_encoding.md R60), the errors a command
can raise (spec/60_exceptions.md R151), and the reasons the model stops. -/

namespace Sys2Proof.Machine

/-- R151: the three error kinds, with the `info` of `raise E(info)`, which is for explanation and reaches no port (R150). An
error is no stop of the machine: the command is aborted and answered (R150). -/
inductive EngineError
  /-- R152: a bit-vector of length `got` where the width is `want`. -/
  | lengthMismatch (got want : Nat)
  /-- R153: a key value outside the table or the bank. -/
  | invalidIndex (index : Nat)
  /-- R154: a hash mode code other than XOR. -/
  | unsupportedHashMode (mode : BitVec 2)
  deriving DecidableEq, Repr

/-- What a micro-operation issued on its own returned (spec/40_substrate.md): the model's own view, no port (R68, log 3). -/
inductive UopResult
  /-- It completed and returns nothing (SR_SHIFT, SR_SET, RB_INSERT, CACHE_WRITE, CACHE_UPDATE). -/
  | done
  /-- A bit-vector. -/
  | bits (v : Bits)
  /-- A natural number (TO_NUMBER). -/
  | number (n : Nat)
  /-- A truth value (BIT_CMP). -/
  | truth (b : Bool)
  /-- A value class (CTR_PRED). -/
  | outcome (o : BranchResult)
  /-- It raised an error and wrote nothing. -/
  | raised (e : EngineError)
  deriving DecidableEq, Repr

/-- A table or a register bank in canonical form: (slot, entry) pairs with strictly rising slots and no all-ZERO entry. A
slot that is not listed holds the all-ZERO entry, its reset value (R170). The unit is one whole entry, never a byte (R40,
R42, R44; log 5). -/
abbrev Memory := List (Nat × Bits)

/-- The state of one engine and of its ports. Which of the four storage elements exist is fixed by `cfg.variant` (R20); one
that does not exist is empty (log 4). -/
structure State where
  /-- R21: the configuration record `CFG`, read-only. -/
  cfg : Config
  /-- R22: the global history register, B bits (GAg, GAs). -/
  bhr : Bits
  /-- R23: the per-set history registers, 2^K of B bits (SAg). -/
  psbhr : Memory
  /-- R24: the global table, 2^B slots of S bits (GAg, SAg). -/
  pht : Memory
  /-- R25: the per-address-hashed table, 2^(K+B) slots of S bits (GAs). -/
  pspht : Memory
  /-- R60, R144: what the host has issued and the engine has not served, oldest first (log 2). -/
  pending : List Request
  /-- R65: the response word of the last command; none before the first. No operation reads it (R28; log 2). -/
  resp : Option (BitVec 3)
  /-- R66: the snapshot, defined only in the response to MONITOR. No operation reads it (log 2). -/
  mon : Option Snapshot
  /-- The model's own field: what the last micro-operation issued on its own gave (log 3). No operation reads it. -/
  uop : Option UopResult
  deriving DecidableEq, Repr

/-- The faults: an operation with operands for which its rule defines nothing. Each is raised by a micro-operation issued on
its own, never by a command. Safe: the model stops where the spec gives no effect (log 7). -/
inductive Fault
  /-- BIT_XOR of two vectors of different widths. R83: "the operation is not defined". Safe. -/
  | bitXorUnequalWidths
  /-- SR_READ, SR_SHIFT or SR_SET on a ShiftRegister that the engine does not have (R20, R86). Safe. -/
  | noSuchRegister (number : Nat)
  /-- CTR_PRED of a block with no bit. R98: "an S-bit counter c, with S ≥ 1". Safe. -/
  | emptyCounter
  deriving DecidableEq, Repr

/-- The refusals: what never becomes an operation of an engine. -/
inductive Refusal
  /-- An operation without a meaning. No arm of `exec` answers so: every operation has its meaning. Safe. -/
  | notModelled (mnemonic : String)
  /-- `step`: a micro-operation request whose operand list does not have the shape of its rule (log 3). Safe. -/
  | operandShape (uop : BitVec 4)
  /-- `construct`: VARIANT code `11`, R158 check 1, "not an engine (no error code; refused)". Safe. -/
  | notAnEngine
  /-- `construct`: R158 checks 2 to 4, with the error they name. Safe. -/
  | badConfiguration (e : EngineError)
  deriving DecidableEq, Repr

/-- R170: `init(CFG)`, the state of a newly constructed engine, with nothing issued yet and no response given. -/
def State.init (cfg : Config) : State :=
  { cfg := cfg
    bhr := match cfg.variant with
      | .gag => zeros cfg.histW
      | .gas => zeros cfg.histW
      | .sag => []
    psbhr := []
    pht := []
    pspht := []
    pending := []
    resp := none
    mon := none
    uop := none }

/-- R171: the machine right after reset. Every storage element is all ZERO as the spec says; the configuration is the
model's choice (log 1). -/
def State.reset : State := State.init Config.elaborated

end Sys2Proof.Machine
end

