-- ==== Sys2Proof/Machine/Operands.lean ====
section
/-! DEFINITION. Operands: the forms in which values are read and built (spec/00_scope.md R10, R11, spec/40_substrate.md R80-R85,
R88, R95-R100, R108), as plain functions on Bits and bit sequences. -/

namespace Sys2Proof.Machine

/-- R83: `a XOR b = ONE iff a ≠ b`. -/
def xorBit (a b : Bit) : Bit := if a = b then .zero else .one

/-- R83: the same, bitwise, of two vectors of equal width. -/
def xorBits (a b : Bits) : Bits := List.zipWith xorBit a b

/-- R81: `a < b iff a = ZERO and b = ONE`. -/
def bitLt (a b : Bit) : Bool := decide (a = .zero ∧ b = .one)

/-- R84: `n <- 0; for i: n <- 2*n + s[i]`, element 0 most significant. This is also `val` (R9, R10). -/
def toNumber (s : Bits) : Nat := s.foldl (fun n b => 2 * n + b.toNat) 0

/-- R11: `zext_W(x)`, the `w`-bit value of `x` (modulo `2^w`), most significant bit first. -/
def zext : Nat → Nat → Bits
  | 0, _ => []
  | w + 1, x => Bit.ofBool (x.testBit w) :: zext w x

/-- R85, R11: `a ++ b`, `a` above `b`. -/
def concatBits (a b : Bits) : Bits := a ++ b

/-- R82: `bit(TAKEN) = ONE`, `bit(NOT_TAKEN) = ZERO` (spec decision D3). -/
def outcomeBit : BranchResult → Bit
  | .taken => .one
  | .notTaken => .zero

/-- R88: `shin_W(h, b)`. In the sequence view element 0, the oldest, is dropped and `b` is appended (spec decision D2). The
width stays that of `h`. -/
def shin (h : Bits) (b : Bit) : Bits := (h ++ [b]).drop 1

/-- R96: `inc_S(c)`, saturating at `2^S − 1`, with S the width of `c`. -/
def incCounter (c : Bits) : Bits :=
  if toNumber c < 2 ^ c.length - 1 then zext c.length (toNumber c + 1) else c

/-- R97: `dec_S(c)`, saturating at 0. -/
def decCounter (c : Bits) : Bits :=
  if 0 < toNumber c then zext c.length (toNumber c - 1) else c

/-- R98: `class_S(c)`, TAKEN iff `val(c) ≥ 2^(S−1)`. -/
def valueClass (c : Bits) : BranchResult :=
  if 2 ^ (c.length - 1) ≤ toNumber c then .taken else .notTaken

/-- R100: `step_S(c, o)`. -/
def stepCounter (c : Bits) : BranchResult → Bits
  | .taken => incCounter c
  | .notTaken => decCounter c

/-- R108: the loop of HASH_XOR from element number `i` on, `out[i mod K] <- out[i mod K] XOR s[i]`, left to right. -/
def hashLoop (k : Nat) : Nat → Bits → Bits → Bits
  | _, out, [] => out
  | i, out, b :: s => hashLoop k (i + 1) (out.modify (i % k) (fun x => xorBit x b)) s

/-- R108: the XOR fold of `a` to `k` bits, the running value starting all ZERO (spec decision D4). -/
def hashFold (k : Nat) (a : Bits) : Bits := hashLoop k 0 (zeros k) a

end Sys2Proof.Machine
end

