-- ==== Sys2Proof/Machine/Flags.lean ====
section
/-! DEFINITION. Flags: the engine has no flags and no condition codes (spec/10_state.md R28). What a command reports stands in
its response word: the error code and the prediction (spec/30_encoding.md R65, spec/60_exceptions.md R151). -/

namespace Sys2Proof.Machine

/-- R65: the code of a command that completed. -/
def noError : BitVec 2 := 0b00#2

/-- R151: the ERR code of an error. The response records nothing else of it. -/
def EngineError.code : EngineError → BitVec 2
  | .lengthMismatch _ _ => 0b01#2
  | .invalidIndex _ => 0b10#2
  | .unsupportedHashMode _ => 0b11#2

/-- R65: a Bit as the field `PRED`. -/
def predField : Bit → BitVec 1
  | .zero => 0#1
  | .one => 1#1

/-- R65: `respond(pred, err)`, `RESP = ERR ++ PRED`. -/
def respond (pred : Bit) (err : BitVec 2) : BitVec 3 := err ++ predField pred

/-- R65: `ERR = RESP[2:1]`. -/
def respErr (r : BitVec 3) : BitVec 2 := r.extractLsb' 1 2

/-- R65: `PRED = RESP[0]`. -/
def respPred (r : BitVec 3) : Bool := r.getLsbD 0

end Sys2Proof.Machine
end

