-- ==== Sys2Proof/Machine/Ops.lean ====
section
/-! DEFINITION. Ops: the shared operations over tables, registers and ports: reading and writing one entry, the checks that
raise errors in the order of spec/60_exceptions.md R156, taking an error (R150), answering a command (R65), and issuing
requests. -/

namespace Sys2Proof.Machine

/-! ### Tables and banks: one entry (R41, R44, R102) -/

/-- The entry at slot `a`; `w` is the entry width. An unlisted slot holds the all-ZERO entry (R170; log 5). -/
def Memory.read (w : Nat) : Memory → Nat → Bits
  | [], _ => zeros w
  | (k, v) :: m, a => if k = a then v else Memory.read w m a

/-- Overwrite slot `a` with `v`, keeping the canonical form: an all-ZERO entry is not listed. -/
def Memory.write (w : Nat) : Memory → Nat → Bits → Memory
  | [], a, v => if v = zeros w then [] else [(a, v)]
  | (k, u) :: m, a, v =>
    if a < k then (if v = zeros w then (k, u) :: m else (a, v) :: (k, u) :: m)
    else if a = k then (if v = zeros w then m else (a, v) :: m)
    else (k, u) :: Memory.write w m a v

/-- Every slot listed in `m` is at least `lo` and below `size`, the slots rise strictly, every entry has `w` bits and none is
all ZERO. -/
def Memory.wfFrom (w size : Nat) : Nat → Memory → Bool
  | _, [] => true
  | lo, (k, v) :: m =>
    decide (lo ≤ k) && decide (k < size) && decide (v.length = w) && decide (v ≠ zeros w) && Memory.wfFrom w size (k + 1) m

/-- The canonical form of a table of `size` slots of `w` bits. -/
def Memory.wf (w size : Nat) (m : Memory) : Bool := Memory.wfFrom w size 0 m

/-- The first `n` entries in slot order. -/
def Memory.entries (w n : Nat) (m : Memory) : List Bits := (List.range n).map (Memory.read w m)

/-! ### Checks (R152, R153, R156) -/

/-- `if len(s) ≠ want: raise LengthMismatch(len(s), want)`. -/
def checkLength (want : Nat) (s : Bits) : Except EngineError Unit :=
  if s.length = want then .ok () else .error (.lengthMismatch s.length want)

/-- `if val(k) ≥ size: raise InvalidIndex(val(k))`. R153: it cannot fire once the key has its width, "must be checked". -/
def checkIndex (size : Nat) (k : Bits) : Except EngineError Unit :=
  if toNumber k < size then .ok () else .error (.invalidIndex (toNumber k))

/-! ### The table of the engine: PHT (GAg, SAg) or PSPHT (GAs) (R20, R102) -/

/-- The engine's table. -/
def State.table (s : State) : Memory :=
  match s.cfg.variant with
  | .gag => s.pht
  | .gas => s.pspht
  | .sag => s.pht

/-- Replace the engine's table. -/
def State.setTable (s : State) (m : Memory) : State :=
  match s.cfg.variant with
  | .gag => { s with pht := m }
  | .gas => { s with pspht := m }
  | .sag => { s with pht := m }

/-- R12: `TableRead(T, idx)`. -/
def State.readSlot (s : State) (idx : Nat) : Bits := Memory.read s.cfg.ctrW s.table idx

/-- R12: `TableWrite(T, idx, v)`; every other slot keeps its block. -/
def State.writeSlot (s : State) (idx : Nat) (v : Bits) : State := s.setTable (Memory.write s.cfg.ctrW s.table idx v)

/-- R103: CACHE_READ. -/
def cacheReadOp (s : State) (k : Bits) : Except EngineError Bits := do
  checkLength s.cfg.tableKeyW k
  checkIndex (2 ^ s.cfg.tableKeyW) k
  return s.readSlot (toNumber k)

/-- R104: CACHE_WRITE, and R105: CACHE_UPDATE, "exactly that of CACHE_WRITE". -/
def cacheWriteOp (s : State) (k v : Bits) : Except EngineError State := do
  checkLength s.cfg.tableKeyW k
  checkLength s.cfg.ctrW v
  checkIndex (2 ^ s.cfg.tableKeyW) k
  return s.writeSlot (toNumber k) v

/-! ### The history registers: BHR (GAg, GAs) or PSBHR (SAg) (R20, R86, R91) -/

/-- History register number `r`: `PSBHR[r]` in SAg; in GAg and GAs the bank of one register, BHR (R20). -/
def State.readHist (s : State) (r : Nat) : Bits :=
  match s.cfg.variant with
  | .gag => s.bhr
  | .gas => s.bhr
  | .sag => Memory.read s.cfg.histW s.psbhr r

/-- Replace the contents of history register number `r`; every other register keeps its value. -/
def State.writeHist (s : State) (r : Nat) (v : Bits) : State :=
  match s.cfg.variant with
  | .gag => { s with bhr := v }
  | .gas => { s with bhr := v }
  | .sag => { s with psbhr := Memory.write s.cfg.histW s.psbhr r v }

/-- How many history registers the engine has (R8). -/
def histCount (c : Config) : Nat := 2 ^ c.bankKeyW

/-- R92: RB_READ. -/
def bankReadOp (s : State) (k : Bits) : Except EngineError Bits := do
  checkLength s.cfg.bankKeyW k
  checkIndex (2 ^ s.cfg.bankKeyW) k
  return s.readHist (toNumber k)

/-- R93: RB_INSERT, `R[val(k)] <- shin_W(R[val(k)], b)`. -/
def bankInsertOp (s : State) (k : Bits) (b : Bit) : Except EngineError State := do
  checkLength s.cfg.bankKeyW k
  checkIndex (2 ^ s.cfg.bankKeyW) k
  return s.writeHist (toNumber k) (shin (s.readHist (toNumber k)) b)

/-! ### The hash (R107, R108) -/

/-- R108: HASH_XOR with its two checks, the mode before K (R156). It does not look at VARIANT (log 13). -/
def hashOp (cfg : Config) (a : Bits) : Except EngineError Bits :=
  if cfg.hashMode ≠ 0b00#2 then .error (.unsupportedHashMode cfg.hashMode)
  else if cfg.hashW = 0 then .error (.lengthMismatch 0 cfg.hashW)
  else .ok (hashFold cfg.hashW a)

/-! ### Ports: answering a command, taking an error (R65, R150, R155) -/

/-- The command completed: it answers `respond(pred, 00)`, and no snapshot (R66). -/
def State.answer (s : State) (pred : Bit) : State := { s with resp := some (respond pred noError), mon := none }

/-- R150, R155: taking an error. `s` is the state before the command wrote anything: all of it is kept, the response is
`respond(0, code(E))`, and the engine is ready for the next command (log 6). -/
def State.raiseError (s : State) (e : EngineError) : State :=
  { s with resp := some (respond .zero e.code), mon := none }

/-- The result of a micro-operation issued on its own: no port shows it (R68; log 3). -/
def State.giveUop (s : State) (r : UopResult) : State := { s with uop := some r }

/-- End a PREDICT: answer the outcome, or take the error. -/
def finishPredict (s : State) : Except EngineError BranchResult → Host.Outcome State Fault Refusal
  | .ok o => .next (s.answer (outcomeBit o))
  | .error e => .next (s.raiseError e)

/-- End an UPDATE: keep the written state and answer, or take the error in the state before (R150: "writes no state"). -/
def finishUpdate (s : State) : Except EngineError State → Host.Outcome State Fault Refusal
  | .ok s' => .next (s'.answer .zero)
  | .error e => .next (s.raiseError e)

/-- End a reading micro-operation. -/
def finishRead (s : State) : Except EngineError Bits → Host.Outcome State Fault Refusal
  | .ok v => .next (s.giveUop (.bits v))
  | .error e => .next (s.giveUop (.raised e))

/-- End a writing micro-operation; on an error nothing is written. -/
def finishWrite (s : State) : Except EngineError State → Host.Outcome State Fault Refusal
  | .ok s' => .next (s'.giveUop .done)
  | .error e => .next (s.giveUop (.raised e))

/-- R73: the code of `VARIANT`; `11` is no variant. -/
def variantCode : Variant → BitVec 2
  | .gag => 0b00#2
  | .gas => 0b01#2
  | .sag => 0b10#2

/-- R73: the configuration with its field codes. -/
def configRecord (c : Config) : CfgRecord :=
  { variant := variantCode c.variant, histW := c.histW, ctrW := c.ctrW, addrW := c.addrW, hashW := c.hashW,
    hashMode := c.hashMode }

/-- R66, R140: `{ CFG, history, table }`. -/
def State.snapshot (s : State) : Snapshot :=
  { cfg := configRecord s.cfg
    history := match s.cfg.variant with
      | .gag => [s.bhr]
      | .gas => [s.bhr]
      | .sag => Memory.entries s.cfg.histW (2 ^ s.cfg.hashW) s.psbhr
    table := Memory.entries s.cfg.ctrW (2 ^ s.cfg.tableKeyW) s.table }

/-- The text of the last snapshot, in the open format `MONITOR_FORMAT` (R140). No claim may read it. -/
def State.monitorText (s : State) : Option String := s.mon.map Config.monitorFormat

/-- R144: the host issues more requests; they are served after those it issued before. -/
def State.issue (s : State) (rs : List Request) : State := { s with pending := s.pending ++ rs }

end Sys2Proof.Machine
end

