-- ==== Sys2Proof/Machine/BitOps.lean ====
section
/-! DEFINITION. BitOps: the meanings of the micro-operations on Bits and bit sequences, BIT_XOR, BIT_CMP, TO_NUMBER, CONCAT
(spec/40_substrate.md §1). They read their operands only. -/

namespace Sys2Proof.Machine

/-- BIT_XOR, R83: bitwise of equal widths; of unequal widths "the operation is not defined", and the model stops (log 7). -/
def execBitXor (a b : Bits) (s : State) : Host.Outcome State Fault Refusal :=
  if a.length = b.length then .next (s.giveUop (.bits (xorBits a b))) else .fault .bitXorUnequalWidths

/-- BIT_CMP, R81. -/
def execBitCmp (a b : Bit) (s : State) : Host.Outcome State Fault Refusal := .next (s.giveUop (.truth (bitLt a b)))

/-- TO_NUMBER, R84. -/
def execToNumber (v : Bits) (s : State) : Host.Outcome State Fault Refusal := .next (s.giveUop (.number (toNumber v)))

/-- CONCAT, R85. -/
def execConcat (a b : Bits) (s : State) : Host.Outcome State Fault Refusal := .next (s.giveUop (.bits (concatBits a b)))

end Sys2Proof.Machine
end

