-- ==== Sys2Proof/Machine/Cache.lean ====
section
/-! DEFINITION. Cache: the meanings of CACHE_READ, CACHE_WRITE, CACHE_UPDATE (spec/40_substrate.md R102-R105) on the engine's
table. -/

namespace Sys2Proof.Machine

/-- CACHE_READ, R103. -/
def execCacheRead (key : Bits) (s : State) : Host.Outcome State Fault Refusal := finishRead s (cacheReadOp s key)

/-- CACHE_WRITE, R104. -/
def execCacheWrite (key block : Bits) (s : State) : Host.Outcome State Fault Refusal :=
  finishWrite s (cacheWriteOp s key block)

/-- CACHE_UPDATE, R105: "exactly that of CACHE_WRITE". -/
def execCacheUpdate (key block : Bits) (s : State) : Host.Outcome State Fault Refusal :=
  finishWrite s (cacheWriteOp s key block)

end Sys2Proof.Machine
end

