-- ==== Sys2Proof/Machine/GAg.lean ====
section
/-! DEFINITION. GAg: PREDICT and UPDATE of the variant with one global history and one global table (spec/41_predictors.md R120,
R121, R122). The self-indexing form of R131 is not implemented. -/

namespace Sys2Proof.Machine

/-- R121, R122: the key is BHR alone. -/
def gagKey (s : State) : Bits := s.bhr

/-- R121: PREDICT with VARIANT = GAg. -/
def predictGAg (a : Bits) (s : State) : Except EngineError BranchResult := do
  checkLength s.cfg.addrW a
  let c ← cacheReadOp s (gagKey s)
  return valueClass c

/-- R122: UPDATE with VARIANT = GAg, in the phases of R130: CHECK, INDEX (with the history before this update, R129), READ,
STEP and WRITE, SHIFT. -/
def updateGAg (a : Bits) (o : BranchResult) (s : State) : Except EngineError State := do
  checkLength s.cfg.addrW a
  let key := gagKey s
  let c ← cacheReadOp s key
  let s' ← cacheWriteOp s key (stepCounter c o)
  return { s' with bhr := shin s.bhr (outcomeBit o) }

end Sys2Proof.Machine
end

