-- ==== Sys2Proof/Machine/GAs.lean ====
section
/-! DEFINITION. GAs: PREDICT and UPDATE of the variant with one global history and a table addressed by hash and history
(spec/41_predictors.md R120, R123-R125). -/

namespace Sys2Proof.Machine

/-- R123: the key `hash(a) ++ BHR`, the hash in the high part. -/
def gasKey (a : Bits) (s : State) : Except EngineError Bits := do
  let k ← hashOp s.cfg a
  return concatBits k s.bhr

/-- R124: PREDICT with VARIANT = GAs. -/
def predictGAs (a : Bits) (s : State) : Except EngineError BranchResult := do
  checkLength s.cfg.addrW a
  let key ← gasKey a s
  let c ← cacheReadOp s key
  return valueClass c

/-- R125: UPDATE with VARIANT = GAs, in the phases of R130. -/
def updateGAs (a : Bits) (o : BranchResult) (s : State) : Except EngineError State := do
  checkLength s.cfg.addrW a
  let key ← gasKey a s
  let c ← cacheReadOp s key
  let s' ← cacheWriteOp s key (stepCounter c o)
  return { s' with bhr := shin s.bhr (outcomeBit o) }

end Sys2Proof.Machine
end

