-- ==== Sys2Proof/Machine/SAg.lean ====
section
/-! DEFINITION. SAg: PREDICT and UPDATE of the variant with one history per set and one global table (spec/41_predictors.md R120,
R126, R127). -/

namespace Sys2Proof.Machine

/-- R126, R127: the set key `hash(a)`. -/
def sagSet (a : Bits) (s : State) : Except EngineError Bits := hashOp s.cfg a

/-- R126: PREDICT with VARIANT = SAg. The set's history is the whole PHT key. -/
def predictSAg (a : Bits) (s : State) : Except EngineError BranchResult := do
  checkLength s.cfg.addrW a
  let k ← sagSet a s
  let h ← bankReadOp s k
  let c ← cacheReadOp s h
  return valueClass c

/-- R127: UPDATE with VARIANT = SAg, in the phases of R130; only the set's own register is shifted. -/
def updateSAg (a : Bits) (o : BranchResult) (s : State) : Except EngineError State := do
  checkLength s.cfg.addrW a
  let k ← sagSet a s
  let h ← bankReadOp s k
  let c ← cacheReadOp s h
  let s' ← cacheWriteOp s h (stepCounter c o)
  bankInsertOp s' k (outcomeBit o)

end Sys2Proof.Machine
end

