-- ==== Sys2Proof/Machine/Commands.lean ====
section
/-! DEFINITION. Commands: the meanings of the four commands (spec/30_encoding.md R62, spec/42_control.md R140, R141). "Which rule
applies is decided by CFG.VARIANT" (R62). -/

namespace Sys2Proof.Machine

/-- PREDICT: R121, R124, R126. -/
def execPredict (a : Bits) (s : State) : Host.Outcome State Fault Refusal :=
  match s.cfg.variant with
  | .gag => finishPredict s (predictGAg a s)
  | .gas => finishPredict s (predictGAs a s)
  | .sag => finishPredict s (predictSAg a s)

/-- UPDATE: R122, R125, R127. -/
def execUpdate (a : Bits) (o : BranchResult) (s : State) : Host.Outcome State Fault Refusal :=
  match s.cfg.variant with
  | .gag => finishUpdate s (updateGAg a o s)
  | .gas => finishUpdate s (updateGAs a o s)
  | .sag => finishUpdate s (updateSAg a o s)

/-- MONITOR, R140: the snapshot in MON, `respond(0, 00)`, no state written. -/
def execMonitor (s : State) : Host.Outcome State Fault Refusal :=
  .next { s.answer .zero with mon := some s.snapshot }

/-- R141: BHR (GAg, GAs) or every PSBHR register (SAg), and every slot of the table, to ZERO; CFG unchanged. An element that
the variant does not have (R20) is left as it is. -/
def State.clear (s : State) : State :=
  match s.cfg.variant with
  | .gag => { s with bhr := zeros s.cfg.histW, pht := [] }
  | .gas => { s with bhr := zeros s.cfg.histW, pspht := [] }
  | .sag => { s with psbhr := [], pht := [] }

/-- RESET, R141. -/
def execReset (s : State) : Host.Outcome State Fault Refusal := .next (s.clear.answer .zero)

end Sys2Proof.Machine
end

