-- ==== Sys2Proof/Machine/Counter.lean ====
section
/-! DEFINITION. Counter: the meanings of CTR_INC, CTR_DEC, CTR_PRED (spec/40_substrate.md R95-R98). The operand is the counter's
block and S is its width (R95: "a counter is an S-bit block"). -/

namespace Sys2Proof.Machine

/-- CTR_INC, R96. -/
def execCtrInc (c : Bits) (s : State) : Host.Outcome State Fault Refusal := .next (s.giveUop (.bits (incCounter c)))

/-- CTR_DEC, R97. -/
def execCtrDec (c : Bits) (s : State) : Host.Outcome State Fault Refusal := .next (s.giveUop (.bits (decCounter c)))

/-- CTR_PRED, R98: defined for S ≥ 1; of a block with no bit the model stops (log 7). -/
def execCtrPred (c : Bits) (s : State) : Host.Outcome State Fault Refusal :=
  if c.length = 0 then .fault .emptyCounter else .next (s.giveUop (.outcome (valueClass c)))

end Sys2Proof.Machine
end

