-- ==== Sys2Proof/Machine/Hash.lean ====
section
/-! DEFINITION. Hash: the meaning of HASH_XOR (spec/40_substrate.md R107, R108). -/

namespace Sys2Proof.Machine

/-- HASH_XOR, R108. A command's address has been checked to have N elements (R120). DESIGN CHOICE (log 14): issued alone with an
operand of another length, of which R108 says nothing, it folds all the elements it is given and raises no error.
DESIGN CHOICE in GAg (log 13): R7 and R154 give that variant no hash and no check of HASH_W or HASH_MODE, and no
rule says what HASH_XOR issued alone does there; the model runs R108 with the values that CFG holds, also for K > N. -/
def execHashXor (addr : Bits) (s : State) : Host.Outcome State Fault Refusal := finishRead s (hashOp s.cfg addr)

end Sys2Proof.Machine
end

