-- ==== Sys2Proof/Machine/RegisterBank.lean ====
section
/-! DEFINITION. RegisterBank: the meanings of RB_READ and RB_INSERT (spec/40_substrate.md R91-R93), on PSBHR in SAg and on the
bank of one register, with keys of no bit, in GAg and GAs (R20, log 4). -/

namespace Sys2Proof.Machine

/-- RB_READ, R92. -/
def execRbRead (key : Bits) (s : State) : Host.Outcome State Fault Refusal := finishRead s (bankReadOp s key)

/-- RB_INSERT, R93: it shifts one Bit into the register the key selects. -/
def execRbInsert (key : Bits) (b : Bit) (s : State) : Host.Outcome State Fault Refusal :=
  finishWrite s (bankInsertOp s key b)

end Sys2Proof.Machine
end

