-- ==== Sys2Proof/Machine/ShiftRegister.lean ====
section
/-! DEFINITION. ShiftRegister: the meanings of SR_READ, SR_SHIFT, SR_SET (spec/40_substrate.md R86-R89). Their operand "a
ShiftRegister h" is one of the engine's history registers, named by its number: 0 is BHR in GAg and GAs, `k` is `PSBHR[k]`
in SAg (R20, R91). -/

namespace Sys2Proof.Machine

/-- SR_READ, R87: the contents; the register is not changed. -/
def execSrRead (reg : Bits) (s : State) : Host.Outcome State Fault Refusal :=
  if toNumber reg < histCount s.cfg then .next (s.giveUop (.bits (s.readHist (toNumber reg))))
  else .fault (.noSuchRegister (toNumber reg))

/-- SR_SHIFT, R88: `h <- shin_W(h, b)`. -/
def execSrShift (reg : Bits) (b : Bit) (s : State) : Host.Outcome State Fault Refusal :=
  if toNumber reg < histCount s.cfg then
    .next ((s.writeHist (toNumber reg) (shin (s.readHist (toNumber reg)) b)).giveUop .done)
  else .fault (.noSuchRegister (toNumber reg))

/-- R89: the parallel load of one register, with its length check. No command issues it (R22). -/
def srSetOp (s : State) (r : Nat) (values : Bits) : Except EngineError State := do
  checkLength s.cfg.histW values
  return s.writeHist r values

/-- SR_SET, R89: on a LengthMismatch the register is unchanged. -/
def execSrSet (reg values : Bits) (s : State) : Host.Outcome State Fault Refusal :=
  if toNumber reg < histCount s.cfg then finishWrite s (srSetOp s (toNumber reg) values)
  else .fault (.noSuchRegister (toNumber reg))

end Sys2Proof.Machine
end

