-- ==== Sys2Proof/Machine/Dispatch.lean ====
section
/-! DEFINITION. Dispatch: the meaning of every operation of spec/opcode_table.json, one arm per constructor of Instr. -/

namespace Sys2Proof.Machine

-- The commands (spec/30_encoding.md R62), then the micro-operations by code (R69).
def exec (i : Instr) (s : State) : Host.Outcome State Fault Refusal :=
  match i with
  | .predict addr => Sys2Proof.Machine.execPredict addr s
  | .update addr actual => Sys2Proof.Machine.execUpdate addr actual s
  | .monitor => Sys2Proof.Machine.execMonitor s
  | .reset => Sys2Proof.Machine.execReset s
  | .bitXor a b => Sys2Proof.Machine.execBitXor a b s
  | .toNumber v => Sys2Proof.Machine.execToNumber v s
  | .srRead reg => Sys2Proof.Machine.execSrRead reg s
  | .srShift reg b => Sys2Proof.Machine.execSrShift reg b s
  | .srSet reg values => Sys2Proof.Machine.execSrSet reg values s
  | .rbRead key => Sys2Proof.Machine.execRbRead key s
  | .rbInsert key b => Sys2Proof.Machine.execRbInsert key b s
  | .ctrInc c => Sys2Proof.Machine.execCtrInc c s
  | .ctrDec c => Sys2Proof.Machine.execCtrDec c s
  | .ctrPred c => Sys2Proof.Machine.execCtrPred c s
  | .cacheRead key => Sys2Proof.Machine.execCacheRead key s
  | .cacheWrite key block => Sys2Proof.Machine.execCacheWrite key block s
  | .cacheUpdate key block => Sys2Proof.Machine.execCacheUpdate key block s
  | .hashXor addr => Sys2Proof.Machine.execHashXor addr s
  | .concat a b => Sys2Proof.Machine.execConcat a b s
  | .bitCmp a b => Sys2Proof.Machine.execBitCmp a b s

end Sys2Proof.Machine
end

