-- ==== Sys2Proof/Machine/Step.lean ====
section
/-! DEFINITION. Step: one step of the engine is one whole transaction (spec/00_scope.md R5, spec/20_memory.md R45). -/

namespace Sys2Proof.Machine

/-- R144: the engine takes the oldest request the host has issued, decodes it and executes it to its end. With nothing
issued it waits: nothing happens between commands (R159, R171). -/
def step (s : State) : Host.Outcome State Fault Refusal :=
  match s.pending with
  | [] => .next s
  | r :: rest =>
    match decode r with
    | .ok i => exec i { s with pending := rest }
    | .error (.operandShape uop) => .refused (.operandShape uop)

/-- The request whose table word is `w`, issued before all others, so that the next step serves it. A number that is the
word of no request (16 and above) changes nothing. -/
def State.withFetchWord (s : State) (nbits w : Nat) : State :=
  match tableRequest s.cfg nbits w with
  | some r => { s with pending := r :: s.pending }
  | none => s

end Sys2Proof.Machine
end

