-- ==== Sys2Proof/Machine/Assembler.lean ====
section
/-! DEFINITION. Assembler: the textual command streams of spec/30_encoding.md R71 and the pseudo-command STEP (R72,
spec/42_control.md R142). It is a tool of the host: no step of the engine uses it (D25). -/

namespace Sys2Proof.Machine

/-- R71, R72: one line of a command stream, its address still a number. -/
inductive AsmLine
  | predict (addr : Nat)
  | update (addr : Nat) (actual : BranchResult)
  | monitor
  | reset
  | step (addr : Nat) (actual : BranchResult)
  deriving DecidableEq, Repr

/-- R71: an address literal, refused when it is `2^N` or more. -/
def asmAddress (addrW addr : Nat) : Option Bits := if addr < 2 ^ addrW then some (zext addrW addr) else none

/-- R71, R72: the requests of one line at an engine with `addrW` address bits; none where the assembler refuses. STEP is
`predict` followed by `update`, with nothing between them (R142). -/
def assembleLine (addrW : Nat) : AsmLine → Option (List Request)
  | .predict addr => (asmAddress addrW addr).map fun a => [encode addrW (.predict a)]
  | .update addr o => (asmAddress addrW addr).map fun a => [encode addrW (.update a o)]
  | .monitor => some [encode addrW .monitor]
  | .reset => some [encode addrW .reset]
  | .step addr o => (asmAddress addrW addr).map fun a => [encode addrW (.predict a), encode addrW (.update a o)]

/-- A collected word, if it has a character; the characters are held last first. -/
def flushWord (cur : List Char) : List (List Char) := if cur = [] then [] else [cur.reverse]

/-- The words of a line: blanks separate, a comma is a word, `;` starts a comment (R71). -/
def asmWords : List Char → List Char → List (List Char)
  | [], cur => flushWord cur
  | c :: cs, cur =>
    if c = ';' then flushWord cur
    else if c = ',' then flushWord cur ++ [','] :: asmWords cs []
    else if c = ' ' ∨ c = '\t' ∨ c = '\r' then flushWord cur ++ asmWords cs []
    else asmWords cs (c :: cur)

/-- The value of a digit, hexadecimal letters in either case. -/
def digitValue (c : Char) : Option Nat :=
  let n := c.toNat
  if 48 ≤ n ∧ n ≤ 57 then some (n - 48)
  else if 97 ≤ n ∧ n ≤ 102 then some (n - 87)
  else if 65 ≤ n ∧ n ≤ 70 then some (n - 55)
  else none

/-- A sequence of digits in a base, most significant first, added to what is read already. -/
def readDigits (base : Nat) : Nat → List Char → Option Nat
  | n, [] => some n
  | n, c :: cs =>
    match digitValue c with
    | some d => if d < base then readDigits base (base * n + d) cs else none
    | none => none

/-- R71: "a natural-number literal, in decimal, 0x hexadecimal or 0b binary". -/
def readNumeral : List Char → Option Nat
  | [] => none
  | ['0', 'x'] => none
  | ['0', 'b'] => none
  | '0' :: 'x' :: ds => readDigits 16 0 ds
  | '0' :: 'b' :: ds => readDigits 2 0 ds
  | ds => readDigits 10 0 ds

/-- R71: "`T` and `N` are the outcomes TAKEN and NOT_TAKEN." -/
def readOutcome : List Char → Option BranchResult
  | ['T'] => some .taken
  | ['N'] => some .notTaken
  | _ => none

/-- A word followed by an address and an outcome, or by an address, or by nothing. -/
def parseWords : List (List Char) → Option AsmLine
  | [w] =>
    if w = ['m', 'o', 'n', 'i', 't', 'o', 'r'] then some .monitor
    else if w = ['r', 'e', 's', 'e', 't'] then some .reset
    else none
  | [w, a] => if w = ['p', 'r', 'e', 'd', 'i', 'c', 't'] then (readNumeral a).map .predict else none
  | [w, a, [','], o] =>
    match readNumeral a, readOutcome o with
    | some n, some r =>
      if w = ['u', 'p', 'd', 'a', 't', 'e'] then some (.update n r)
      else if w = ['s', 't', 'e', 'p'] then some (.step n r)
      else none
    | _, _ => none
  | _ => none

/-- R71: the requests of one line of text; a blank line or a comment has none, and a line that is no command is refused. -/
def assembleText (addrW : Nat) (line : List Char) : Option (List Request) :=
  match asmWords line [] with
  | [] => some []
  | ws =>
    match parseWords ws with
    | some l => assembleLine addrW l
    | none => none

end Sys2Proof.Machine
end

