-- ==== Sys2Proof/Machine/Construct.lean ====
section
/-! DEFINITION. Construct: building an engine from a requested configuration (spec/60_exceptions.md R158,
spec/70_reset_and_hazards.md R170). -/

namespace Sys2Proof.Machine

/-- R73: VARIANT code `11` is not a variant. -/
def variantOfCode (c : BitVec 2) : Option Variant :=
  match c.toNat with
  | 0 => some .gag
  | 1 => some .gas
  | 2 => some .sag
  | _ => none

/-- R158, check 2: the first of the three widths that is 0 raises LengthMismatch. The spec gives the error no `info`; the
model shows the width given and the least legal one, which no port returns (R150; log 11). -/
def checkWidths (r : CfgRecord) : Except EngineError Unit :=
  if r.histW = 0 then .error (.lengthMismatch r.histW 1)
  else if r.ctrW = 0 then .error (.lengthMismatch r.ctrW 1)
  else if r.addrW = 0 then .error (.lengthMismatch r.addrW 1)
  else .ok ()

/-- R158, checks 3 and 4, for a variant with a hash; GAg checks neither (R154). -/
def checkHash (v : Variant) (r : CfgRecord) : Except EngineError Unit :=
  match v with
  | .gag => .ok ()
  | .gas => checkHashFields r
  | .sag => checkHashFields r
where
  /-- `1 ≤ HASH_W ≤ ADDR_W`, then `HASH_MODE = XOR`. -/
  checkHashFields (r : CfgRecord) : Except EngineError Unit :=
    if r.hashW = 0 ∨ r.addrW < r.hashW then .error (.lengthMismatch r.hashW r.addrW)
    else if r.hashMode ≠ 0b00#2 then .error (.unsupportedHashMode r.hashMode)
    else .ok ()

/-- R158: the four checks in their order; "the first failure ends the check" and yields no engine. A passed check yields
`init(CFG)` (R170). -/
def construct (r : CfgRecord) : Host.Outcome State Fault Refusal :=
  match variantOfCode r.variant with
  | none => .refused .notAnEngine
  | some v =>
    match checkWidths r with
    | .error e => .refused (.badConfiguration e)
    | .ok () =>
      match checkHash v r with
      | .error e => .refused (.badConfiguration e)
      | .ok () =>
        .next (State.init
          { variant := v, histW := r.histW, ctrW := r.ctrW, addrW := r.addrW, hashW := r.hashW, hashMode := r.hashMode })

end Sys2Proof.Machine
end

