-- ==== Sys2Proof/Safety.lean ====
section
/-! DEFINITION. Safety: what holds of every state of a constructed engine, and the words in which statements about runs are
made. -/

namespace Sys2Proof.Machine

/-- R20-R25, R86, R102: the storage elements that the variant has hold values of their fixed widths in canonical form, and
the others are empty. -/
abbrev State.Shaped (s : State) : Prop :=
  match s.cfg.variant with
  | .gag =>
    s.bhr.length = s.cfg.histW ∧ s.psbhr = [] ∧ Memory.wf s.cfg.ctrW (2 ^ s.cfg.histW) s.pht = true ∧ s.pspht = []
  | .gas =>
    s.bhr.length = s.cfg.histW ∧ s.psbhr = [] ∧ s.pht = [] ∧
      Memory.wf s.cfg.ctrW (2 ^ (s.cfg.hashW + s.cfg.histW)) s.pspht = true
  | .sag =>
    s.bhr = [] ∧ Memory.wf s.cfg.histW (2 ^ s.cfg.hashW) s.psbhr = true ∧
      Memory.wf s.cfg.ctrW (2 ^ s.cfg.histW) s.pht = true ∧ s.pspht = []

/-- R65, R155, V9: the response words that occur: `000`, `001`, `010`, `100`, `110`, or no response yet. "`011`, `101` and
`111` never occur". -/
abbrev State.RespLegal (s : State) : Prop :=
  s.resp ∈ [none, some 0b000#3, some 0b001#3, some 0b010#3, some 0b100#3, some 0b110#3]

/-- The invariant of a constructed engine: a legal configuration (R158), shaped storage, a response that occurs. -/
abbrev State.Inv (s : State) : Prop := s.cfg.Legal ∧ s.Shaped ∧ s.RespLegal

/-- R26: two states agree on everything the spec gives the engine: configuration, histories, tables. -/
abbrev State.SameEngine (s t : State) : Prop :=
  t.cfg = s.cfg ∧ t.bhr = s.bhr ∧ t.psbhr = s.psbhr ∧ t.pht = s.pht ∧ t.pspht = s.pspht

/-- Two states agree on everything but the engine's storage and the micro-operation view: configuration and ports. -/
abbrev State.SamePorts (s t : State) : Prop :=
  t.cfg = s.cfg ∧ t.pending = s.pending ∧ t.resp = s.resp ∧ t.mon = s.mon

/-- Everything the host has issued and the engine has not served is a command (R68: no port issues a micro-operation). -/
abbrev State.CommandsOnly (s : State) : Prop := ∀ r ∈ s.pending, r.isCommand = true

/-- The key of the slot that PREDICT and UPDATE of address `a` use in state `s` (R121, R123, R126, R129), for an address of N
bits in a state that satisfies the invariant. -/
def State.slotKey (s : State) (a : Bits) : Bits :=
  match s.cfg.variant with
  | .gag => s.bhr
  | .gas => concatBits (hashFold s.cfg.hashW a) s.bhr
  | .sag => Memory.read s.cfg.histW s.psbhr (toNumber (hashFold s.cfg.hashW a))

/-- The number of the history register that UPDATE of address `a` shifts (R122, R125, R127): BHR, or the set's own. -/
def State.setNumber (s : State) (a : Bits) : Nat :=
  match s.cfg.variant with
  | .gag => 0
  | .gas => 0
  | .sag => toNumber (hashFold s.cfg.hashW a)

/-- The prediction in the response of a state, if a command has answered. -/
def State.prediction (s : State) : Option Bool := s.resp.map respPred

end Sys2Proof.Machine
end

