-- ==== Sys2Proof/Certificates/Slice0/Obligations.lean ====
section
/-! DEFINITION. Obligations: the statements about the engine, each from the rules of spec/ that its docstring names. Where a
rule rests on one of the spec's own decisions D<n>, the docstring says so. "Log <n>" is notes/assumptions/<n>.md. -/

open Sys2Proof Sys2Proof.Machine Host

/-! ### Encoding -/

/-- R61, R62, R63, R67 (spec decisions D10, D12): the eight CMD words, written out, select their commands, with any address. -/
def Obligations.EveryCommandWordDecodes : Prop :=
  ∀ a : Bits,
    decode (.command 0b000#3 a) = .ok (.predict a) ∧ decode (.command 0b001#3 a) = .ok (.predict a) ∧
    decode (.command 0b010#3 a) = .ok (.update a .notTaken) ∧ decode (.command 0b011#3 a) = .ok (.update a .taken) ∧
    decode (.command 0b100#3 a) = .ok .monitor ∧ decode (.command 0b101#3 a) = .ok .monitor ∧
    decode (.command 0b110#3 a) = .ok .reset ∧ decode (.command 0b111#3 a) = .ok .reset

/-- R69 (spec decision D24): the sixteen UOP codes, written out, with operands of the shapes the model gives them (log 3). -/
def Obligations.EveryMicroCodeDecodes : Prop :=
  ∀ (u v : Bits) (x y : Bit),
    decode (.micro 0b0000#4 [u, v]) = .ok (.bitXor u v) ∧ decode (.micro 0b0001#4 [u]) = .ok (.toNumber u) ∧
    decode (.micro 0b0010#4 [u]) = .ok (.srRead u) ∧ decode (.micro 0b0011#4 [u, [x]]) = .ok (.srShift u x) ∧
    decode (.micro 0b0100#4 [u, v]) = .ok (.srSet u v) ∧ decode (.micro 0b0101#4 [u]) = .ok (.rbRead u) ∧
    decode (.micro 0b0110#4 [u, [x]]) = .ok (.rbInsert u x) ∧ decode (.micro 0b0111#4 [u]) = .ok (.ctrInc u) ∧
    decode (.micro 0b1000#4 [u]) = .ok (.ctrDec u) ∧ decode (.micro 0b1001#4 [u]) = .ok (.ctrPred u) ∧
    decode (.micro 0b1010#4 [u]) = .ok (.cacheRead u) ∧ decode (.micro 0b1011#4 [u, v]) = .ok (.cacheWrite u v) ∧
    decode (.micro 0b1100#4 [u, v]) = .ok (.cacheUpdate u v) ∧ decode (.micro 0b1101#4 [u]) = .ok (.hashXor u) ∧
    decode (.micro 0b1110#4 [u, v]) = .ok (.concat u v) ∧ decode (.micro 0b1111#4 [[x], [y]]) = .ok (.bitCmp x y)

/-- Decoding what the encoder writes gives the operation back, for every operation with every operand; and a micro-operation
request that decodes is exactly what the encoder writes for its operation, so that no two of them share a meaning and no
bit of the code or of an operand is dropped. -/
def Obligations.DecodeEncodeAgree : Prop :=
  (∀ (n : Nat) (i : Instr), decode (encode n i) = .ok i) ∧
  ∀ (n : Nat) (u : BitVec 4) (ops : List Bits) (i : Instr), decode (.micro u ops) = .ok i → encode n i = .micro u ops

/-- The other direction, for every command word: encoding the decoded command gives the word back with the ignored bits
ZERO: `T` outside UPDATE (R63), `ADDR` of MONITOR and RESET (R64). So no other bit of the word or the address is dropped. -/
def Obligations.CommandWordsReencode : Prop :=
  ∀ (n : Nat) (cmd : BitVec 3) (a : Bits) (i : Instr), decode (.command cmd a) = .ok i →
    encode n i = .command (cmdWord (cmdOp cmd) (decide (cmdOp cmd = 0b01#2) && cmdT cmd))
      (if cmdOp cmd = 0b00#2 ∨ cmdOp cmd = 0b01#2 then a else zeros n)

/-- R68 (spec decision D24): a request at the ports selects a command and never a micro-operation; and a micro-operation
request never selects a command. -/
def Obligations.NoCommandIssuesMicroOp : Prop :=
  ∀ (r : Request) (i : Instr), decode r = .ok i → i.isCommand = r.isCommand

/-! ### The step -/

/-- R144, R45: with a request pending that decodes to `i`, one step is the whole of `i` on the state without that request. -/
def Obligations.StepRunsDecoded : Prop :=
  ∀ (s : State) (r : Request) (rest : List Request) (i : Instr), s.pending = r :: rest → decode r = .ok i →
    step s = exec i { s with pending := rest }

/-- R159, R171: with nothing pending the engine waits, and nothing happens. A micro-operation request with operands of the
wrong shape is refused by name (log 3). -/
def Obligations.StepWaitsOrRefuses : Prop :=
  (∀ s : State, s.pending = [] → step s = .next s) ∧
  (∀ (s : State) (r : Request) (rest : List Request) (u : BitVec 4), s.pending = r :: rest →
    decode r = .error (.operandShape u) → step s = .refused (.operandShape u))

/-- R144: "A command is never dropped, repeated or reordered": a step takes the first pending request and leaves the others
as they stand. -/
def Obligations.StepServesRequestsInOrder : Prop :=
  ∀ (s t : State) (r : Request) (rest : List Request), s.pending = r :: rest → step s = .next t → t.pending = rest

/-- R144, and spec/93 §1 ("No behaviour in this spec is stuck"): in EVERY state, also one that no run reaches, a step that
serves a command completes, and leaves only commands pending. -/
def Obligations.CommandsAlwaysComplete : Prop :=
  ∀ s : State, s.CommandsOnly → ∃ t, step s = .next t ∧ t.CommandsOnly

/-- R49: every command observes every earlier one and no later one. Serving `cs` with more commands `ds` behind them gives
what serving `cs` alone gives, with `ds` still pending. -/
def Obligations.LaterCommandsUnobserved : Prop :=
  ∀ (cs ds : List Request) (s t : State), Host.Core.run core cs.length { s with pending := cs } = .next t →
    Host.Core.run core cs.length { s with pending := cs ++ ds } = .next { t with pending := ds }

/-! ### PREDICT and UPDATE -/

/-- R121, GAg. An address of the wrong length is answered `010` (LengthMismatch) with nothing written; otherwise the response
is `00` and PRED, 1 iff `val(PHT[val(BHR)]) ≥ 2^(S−1)`. No state is written. -/
def Obligations.PredictGAg : Prop :=
  ∀ (a : Bits) (s : State), s.cfg.variant = .gag →
    (∀ x, decode (.command (cmdWord 0b00#2 x) a) = .ok (.predict a)) ∧
    (a.length ≠ s.cfg.addrW → exec (.predict a) s = .next { s with resp := some 0b010#3, mon := none }) ∧
    (s.Inv → a.length = s.cfg.addrW →
      exec (.predict a) s = .next { s with
        resp := some (0b00#2 ++ BitVec.ofBool (decide (2 ^ (s.cfg.ctrW - 1) ≤
          toNumber (Memory.read s.cfg.ctrW s.pht (toNumber s.bhr))))), mon := none })

/-- R122, GAg: the counter at the old BHR is stepped toward the outcome, the outcome's Bit is shifted into BHR, and the
response is `000`. An address of the wrong length writes nothing and is answered `010`. -/
def Obligations.UpdateGAg : Prop :=
  ∀ (a : Bits) (o : BranchResult) (s : State), s.cfg.variant = .gag →
    decode (.command (cmdWord 0b01#2 (decide (o = .taken))) a) = .ok (.update a o) ∧
    (a.length ≠ s.cfg.addrW → exec (.update a o) s = .next { s with resp := some 0b010#3, mon := none }) ∧
    (s.Inv → a.length = s.cfg.addrW →
      exec (.update a o) s = .next { s with
        pht := Memory.write s.cfg.ctrW s.pht (toNumber s.bhr)
          (stepCounter (Memory.read s.cfg.ctrW s.pht (toNumber s.bhr)) o)
        bhr := shin s.bhr (outcomeBit o), resp := some 0b000#3, mon := none })

/-- R123, R124, GAs: as R121, at the slot `val(hash(a)) * 2^B + val(BHR)` of PSPHT. -/
def Obligations.PredictGAs : Prop :=
  ∀ (a : Bits) (s : State), s.cfg.variant = .gas →
    (∀ x, decode (.command (cmdWord 0b00#2 x) a) = .ok (.predict a)) ∧
    (a.length ≠ s.cfg.addrW → exec (.predict a) s = .next { s with resp := some 0b010#3, mon := none }) ∧
    (s.Inv → a.length = s.cfg.addrW →
      exec (.predict a) s = .next { s with
        resp := some (0b00#2 ++ BitVec.ofBool (decide (2 ^ (s.cfg.ctrW - 1) ≤ toNumber (Memory.read s.cfg.ctrW s.pspht
          (toNumber (hashFold s.cfg.hashW a) * 2 ^ s.cfg.histW + toNumber s.bhr))))), mon := none })

/-- R123, R125, GAs: the counter at `val(hash(a)) * 2^B + val(BHR)` is stepped, and the global BHR shifts. -/
def Obligations.UpdateGAs : Prop :=
  ∀ (a : Bits) (o : BranchResult) (s : State), s.cfg.variant = .gas →
    decode (.command (cmdWord 0b01#2 (decide (o = .taken))) a) = .ok (.update a o) ∧
    (a.length ≠ s.cfg.addrW → exec (.update a o) s = .next { s with resp := some 0b010#3, mon := none }) ∧
    (s.Inv → a.length = s.cfg.addrW →
      exec (.update a o) s = .next { s with
        pspht := Memory.write s.cfg.ctrW s.pspht
          (toNumber (hashFold s.cfg.hashW a) * 2 ^ s.cfg.histW + toNumber s.bhr)
          (stepCounter (Memory.read s.cfg.ctrW s.pspht
            (toNumber (hashFold s.cfg.hashW a) * 2 ^ s.cfg.histW + toNumber s.bhr)) o)
        bhr := shin s.bhr (outcomeBit o), resp := some 0b000#3, mon := none })

/-- R126, SAg: the history of the set `hash(a)` is the whole PHT key. -/
def Obligations.PredictSAg : Prop :=
  ∀ (a : Bits) (s : State), s.cfg.variant = .sag →
    (∀ x, decode (.command (cmdWord 0b00#2 x) a) = .ok (.predict a)) ∧
    (a.length ≠ s.cfg.addrW → exec (.predict a) s = .next { s with resp := some 0b010#3, mon := none }) ∧
    (s.Inv → a.length = s.cfg.addrW →
      exec (.predict a) s = .next { s with
        resp := some (0b00#2 ++ BitVec.ofBool (decide (2 ^ (s.cfg.ctrW - 1) ≤ toNumber (Memory.read s.cfg.ctrW s.pht
          (toNumber (Memory.read s.cfg.histW s.psbhr (toNumber (hashFold s.cfg.hashW a)))))))), mon := none })

/-- R127, SAg: the counter at the set's history is stepped, and only the set's own register shifts. -/
def Obligations.UpdateSAg : Prop :=
  ∀ (a : Bits) (o : BranchResult) (s : State), s.cfg.variant = .sag →
    decode (.command (cmdWord 0b01#2 (decide (o = .taken))) a) = .ok (.update a o) ∧
    (a.length ≠ s.cfg.addrW → exec (.update a o) s = .next { s with resp := some 0b010#3, mon := none }) ∧
    (s.Inv → a.length = s.cfg.addrW →
      exec (.update a o) s = .next { s with
        pht := Memory.write s.cfg.ctrW s.pht
          (toNumber (Memory.read s.cfg.histW s.psbhr (toNumber (hashFold s.cfg.hashW a))))
          (stepCounter (Memory.read s.cfg.ctrW s.pht
            (toNumber (Memory.read s.cfg.histW s.psbhr (toNumber (hashFold s.cfg.hashW a))))) o)
        psbhr := Memory.write s.cfg.histW s.psbhr (toNumber (hashFold s.cfg.hashW a))
          (shin (Memory.read s.cfg.histW s.psbhr (toNumber (hashFold s.cfg.hashW a))) (outcomeBit o))
        resp := some 0b000#3, mon := none })

/-- R22-R26, R94, the frame of UPDATE in every variant: the slot of the address holds its counter stepped, every other slot
reads as before; the history register of the address holds its contents shifted, every other register reads as before;
the storage the variant does not have, CFG, the pending requests and the micro-operation view are unchanged. -/
def Obligations.UpdateFrame : Prop :=
  ∀ (a : Bits) (o : BranchResult) (s : State), s.Inv → a.length = s.cfg.addrW →
    ∃ t, exec (.update a o) s = .next t ∧
      t.readSlot (toNumber (s.slotKey a)) = stepCounter (s.readSlot (toNumber (s.slotKey a))) o ∧
      (∀ j, j ≠ toNumber (s.slotKey a) → t.readSlot j = s.readSlot j) ∧
      t.readHist (s.setNumber a) = shin (s.readHist (s.setNumber a)) (outcomeBit o) ∧
      (∀ r, r < histCount s.cfg → r ≠ s.setNumber a → t.readHist r = s.readHist r) ∧
      (s.cfg.variant = .gag → t.psbhr = s.psbhr ∧ t.pspht = s.pspht) ∧
      (s.cfg.variant = .gas → t.psbhr = s.psbhr ∧ t.pht = s.pht) ∧
      (s.cfg.variant = .sag → t.bhr = s.bhr ∧ t.pspht = s.pspht) ∧
      t.cfg = s.cfg ∧ t.pending = s.pending ∧ t.uop = s.uop

/-- R129: the slot that UPDATE steps is the slot that the PREDICT just before it read; that PREDICT answers with the counter
before the UPDATE, and a PREDICT after the UPDATE reads the slot the new history chooses. -/
def Obligations.UpdateStepsThePredictedSlot : Prop :=
  ∀ (a : Bits) (o : BranchResult) (s : State), s.Inv → a.length = s.cfg.addrW →
    ∃ p u q, exec (.predict a) s = .next p ∧ exec (.update a o) p = .next u ∧ exec (.predict a) u = .next q ∧
      p.resp = some (respond (outcomeBit (valueClass (s.readSlot (toNumber (s.slotKey a))))) 0b00#2) ∧
      u.readSlot (toNumber (s.slotKey a)) = stepCounter (s.readSlot (toNumber (s.slotKey a))) o ∧
      (∀ j, j ≠ toNumber (s.slotKey a) → u.readSlot j = s.readSlot j) ∧
      q.resp = some (respond (outcomeBit (valueClass (u.readSlot (toNumber (u.slotKey a))))) 0b00#2)

/-- R128: in every state PREDICT writes none of the engine's state, and a second PREDICT, also after a MONITOR, gives the
same response. -/
def Obligations.PredictIsPureAndIdempotent : Prop :=
  ∀ (a : Bits) (s : State), ∃ t, exec (.predict a) s = .next t ∧ s.SameEngine t ∧ t.pending = s.pending ∧ t.uop = s.uop ∧
    exec (.predict a) t = .next t ∧ ∀ m, exec .monitor t = .next m → exec (.predict a) m = .next t

/-- R128, over whole runs: two PREDICTs of one address, with any commands between them that decode to PREDICT or MONITOR (so
no UPDATE and no RESET), give the same response, and the whole run writes none of the engine's state. -/
def Obligations.PredictsBetweenWritesAgree : Prop :=
  ∀ (a : Bits) (x y : Bool) (rs : List Request) (s : State),
    (∀ r ∈ rs, (∃ b, decode r = .ok (.predict b)) ∨ decode r = .ok .monitor) →
    ∃ u v,
      Host.Core.run core 1 { s with
        pending := .command (cmdWord 0b00#2 x) a :: (rs ++ [.command (cmdWord 0b00#2 y) a]) } = .next u ∧
      Host.Core.run core (rs.length + 2) { s with
        pending := .command (cmdWord 0b00#2 x) a :: (rs ++ [.command (cmdWord 0b00#2 y) a]) } = .next v ∧
      v.resp = u.resp ∧ s.SameEngine u ∧ s.SameEngine v

/-- R132. (a) GAs: two addresses use the same slot iff their hashes are equal. (b), (c) SAg: they shift the same history register
iff their hashes are equal, and then use the same slot; with different hashes they use the same slot iff the two histories
are equal. (d) GAg reads no Bit of the address: two addresses of equal length give the same next state (R7). -/
def Obligations.AliasingFollowsTheHash : Prop :=
  ∀ (a b : Bits) (o : BranchResult) (s : State), s.Inv → a.length = s.cfg.addrW → b.length = s.cfg.addrW →
    (s.cfg.variant = .gas →
      (toNumber (s.slotKey a) = toNumber (s.slotKey b) ↔ hashFold s.cfg.hashW a = hashFold s.cfg.hashW b)) ∧
    (s.cfg.variant = .sag →
      (s.setNumber a = s.setNumber b ↔ hashFold s.cfg.hashW a = hashFold s.cfg.hashW b) ∧
      (toNumber (s.slotKey a) = toNumber (s.slotKey b) ↔ s.readHist (s.setNumber a) = s.readHist (s.setNumber b))) ∧
    (s.cfg.variant = .gag →
      exec (.predict a) s = exec (.predict b) s ∧ exec (.update a o) s = exec (.update b o) s)

/-! ### MONITOR and RESET -/

/-- R140, R66: MONITOR answers `000`, writes nothing of the engine's state, and its snapshot holds CFG with the codes of R73;
BHR, or the 2^K registers of PSBHR in key order; the 2^TKW blocks of the table in slot order. -/
def Obligations.MonitorShowsAllState : Prop :=
  ∀ s : State, (∀ x a, decode (.command (cmdWord 0b10#2 x) a) = .ok .monitor) ∧ ∃ m : Snapshot, exec .monitor s = .next { s with resp := some 0b000#3, mon := some m } ∧
    m.cfg.variant = (match s.cfg.variant with | .gag => 0b00#2 | .gas => 0b01#2 | .sag => 0b10#2) ∧
    m.cfg.histW = s.cfg.histW ∧ m.cfg.ctrW = s.cfg.ctrW ∧ m.cfg.addrW = s.cfg.addrW ∧
    m.cfg.hashW = s.cfg.hashW ∧ m.cfg.hashMode = s.cfg.hashMode ∧
    (s.cfg.variant ≠ .sag → m.history = [s.bhr]) ∧
    (s.cfg.variant = .sag → m.history.length = 2 ^ s.cfg.hashW ∧
      ∀ k : Nat, k < 2 ^ s.cfg.hashW → m.history[k]? = some (Memory.read s.cfg.histW s.psbhr k)) ∧
    m.table.length = 2 ^ s.cfg.tableKeyW ∧
    ∀ j : Nat, j < 2 ^ s.cfg.tableKeyW → m.table[j]? = some (s.readSlot j)

/-- R141 (spec decision D17): RESET in every state: BHR, or every register of PSBHR, and every slot are ZERO, the response is
`000`, CFG and the pending requests are unchanged. -/
def Obligations.ResetClearsAllState : Prop :=
  ∀ s : State, (∀ x a, decode (.command (cmdWord 0b11#2 x) a) = .ok .reset) ∧ ∃ t, exec .reset s = .next t ∧
    (s.cfg.variant ≠ .sag → t.bhr = zeros s.cfg.histW) ∧
    (s.cfg.variant = .sag → ∀ k, Memory.read s.cfg.histW t.psbhr k = zeros s.cfg.histW) ∧
    (∀ j, t.readSlot j = zeros s.cfg.ctrW) ∧
    t.resp = some 0b000#3 ∧ t.mon = none ∧ t.cfg = s.cfg ∧ t.pending = s.pending ∧ t.uop = s.uop

/-- R172: RESET takes any state of an engine to `init(CFG)`, with what is pending still pending. -/
def Obligations.ResetEqualsConstruction : Prop :=
  ∀ s : State, s.Inv →
    exec .reset s = .next { State.init s.cfg with pending := s.pending, resp := some 0b000#3, uop := s.uop }

/-- R172, over whole runs: after RESET, any commands are served exactly as by a freshly constructed engine with the same CFG:
after each number of further steps the engine, the response and the snapshot are those of the fresh engine. -/
def Obligations.RunsAfterResetMatchFreshRuns : Prop :=
  ∀ (s : State) (a : Bits) (t : Bool) (rs : List Request) (n : Nat), s.Inv → (∀ r ∈ rs, r.isCommand = true) →
    0 < n → n ≤ rs.length →
    ∃ u v, Host.Core.run core (n + 1) { s with pending := .command (cmdWord 0b11#2 t) a :: rs } = .next u ∧
      Host.Core.run core n { State.init s.cfg with pending := rs } = .next v ∧
      v.SameEngine u ∧ u.pending = v.pending ∧ u.resp = v.resp ∧ u.mon = v.mon

/-! ### Errors -/

/-- R150, R155, R157: a command that answers with an error has written nothing and answers `respond(0, code)`: the next state
is the old one with that response and no snapshot; and the error is not sticky: every command after it runs as if the
erroneous one had never been issued. -/
def Obligations.ErrorsWriteNothing : Prop :=
  ∀ (i : Instr) (s t : State) (r : BitVec 3), i.isCommand = true → exec i s = .next t → t.resp = some r →
    respErr r ≠ 0b00#2 →
    t = { s with resp := some (respErr r ++ 0b0#1), mon := none } ∧ ∀ j : Instr, j.isCommand = true → exec j t = exec j s

/-- R28: what a command answered is not read by a later command. -/
def Obligations.ResponsesAreNotRead : Prop :=
  ∀ (i : Instr) (s : State) (r : Option (BitVec 3)) (m : Option Snapshot), i.isCommand = true →
    exec i { s with resp := r, mon := m } = exec i s

/-- R153: InvalidIndex cannot occur: in every state no command answers `10`, and no micro-operation raises it. -/
def Obligations.InvalidIndexUnreachable : Prop :=
  ∀ (i : Instr) (s t : State), exec i s = .next t →
    (i.isCommand = true → ∀ r, t.resp = some r → respErr r ≠ 0b10#2) ∧
    (i.isCommand = false → ∀ n, t.uop ≠ some (.raised (.invalidIndex n)))

/-- R120, R156: in a constructed engine the address check is the only one that can fail: a PREDICT or UPDATE with an address
of N bits, and every MONITOR and RESET, answers without an error. -/
def Obligations.OnlyTheAddressCheckFails : Prop :=
  ∀ (i : Instr) (s : State), s.Inv → i.isCommand = true → WellFormed s.cfg i = true →
    ∃ t r, exec i s = .next t ∧ t.resp = some r ∧ respErr r = 0b00#2

/-! ### Micro-operations: bits -/

/-- R83: BIT_XOR of equal widths: each Bit of the result is ONE iff the two Bits differ; nothing else changes. -/
def Obligations.BitXorComputesDifference : Prop :=
  ∀ (a b : Bits) (s : State), a.length = b.length →
    decode (.micro 0b0000#4 [a, b]) = .ok (.bitXor a b) ∧
    ∃ x : Bits, exec (.bitXor a b) s = .next { s with uop := some (.bits x) } ∧ x.length = a.length ∧
      ∀ j : Nat, j < a.length → x[j]? = some (if a[j]? = b[j]? then Bit.zero else Bit.one)

/-- The operands for which a rule defines nothing, on which the model stops by its own choice (log 7): BIT_XOR of unequal
widths (R83: "the operation is not defined"), a shift-register operation on a register that the engine does not have, and
CTR_PRED of a block with no bit (R98: "with S ≥ 1"). -/
def Obligations.UndefinedOperandsStop : Prop :=
  (∀ (a b : Bits) (s : State), a.length ≠ b.length → exec (.bitXor a b) s = .fault .bitXorUnequalWidths) ∧
  (∀ (reg values : Bits) (b : Bit) (s : State), histCount s.cfg ≤ toNumber reg →
    exec (.srRead reg) s = .fault (.noSuchRegister (toNumber reg)) ∧
    exec (.srShift reg b) s = .fault (.noSuchRegister (toNumber reg)) ∧
    exec (.srSet reg values) s = .fault (.noSuchRegister (toNumber reg))) ∧
  (∀ s : State, exec (.ctrPred []) s = .fault .emptyCounter)

/-- R81: BIT_CMP, `a < b` iff `a` is ZERO and `b` is ONE. -/
def Obligations.BitCmpResult : Prop :=
  ∀ (a b : Bit) (s : State),
    decode (.micro 0b1111#4 [[a], [b]]) = .ok (.bitCmp a b) ∧
    exec (.bitCmp a b) s = .next { s with uop := some (.truth (decide (a = .zero ∧ b = .one))) }

/-- R84, R10 (spec decision D1): TO_NUMBER, element 0 most significant: the sum of `s_i * 2^(w-1-i)`, below `2^w`. -/
def Obligations.ToNumberResult : Prop :=
  ∀ (v : Bits) (s : State),
    decode (.micro 0b0001#4 [v]) = .ok (.toNumber v) ∧
    exec (.toNumber v) s = .next { s with
      uop := some (.number (∑ j ∈ Finset.range v.length, (v.getD j .zero).toNat * 2 ^ (v.length - 1 - j))) } ∧
    toNumber v < 2 ^ v.length

/-- R85: CONCAT: the sequence of `a` followed by that of `b`, with `val(c) = val(a)*2^wb + val(b)`. -/
def Obligations.ConcatResult : Prop :=
  ∀ (a b : Bits) (s : State),
    decode (.micro 0b1110#4 [a, b]) = .ok (.concat a b) ∧
    exec (.concat a b) s = .next { s with uop := some (.bits (a ++ b)) } ∧
    toNumber (a ++ b) = toNumber a * 2 ^ b.length + toNumber b

/-! ### Micro-operations: registers -/

/-- R87: SR_READ of a register the engine has returns its contents and changes nothing else. -/
def Obligations.SrReadResult : Prop :=
  ∀ (reg : Bits) (s : State), toNumber reg < histCount s.cfg →
    decode (.micro 0b0010#4 [reg]) = .ok (.srRead reg) ∧
    exec (.srRead reg) s = .next { s with uop := some (.bits (s.readHist (toNumber reg))) }

/-- R88 (spec decision D2): SR_SHIFT gives the register `((h << 1) | b) mod 2^W` in W bits; every other register, the table,
CFG and the ports are unchanged. -/
def Obligations.SrShiftResult : Prop :=
  ∀ (reg : Bits) (b : Bit) (s : State), s.Inv → toNumber reg < histCount s.cfg →
    decode (.micro 0b0011#4 [reg, [b]]) = .ok (.srShift reg b) ∧
    ∃ t, exec (.srShift reg b) s = .next t ∧
      (t.readHist (toNumber reg)).length = s.cfg.histW ∧
      toNumber (t.readHist (toNumber reg)) =
        (2 * toNumber (s.readHist (toNumber reg)) + b.toNat) % 2 ^ s.cfg.histW ∧
      (∀ r, r < histCount s.cfg → r ≠ toNumber reg → t.readHist r = s.readHist r) ∧
      (s.cfg.variant ≠ .sag → t.psbhr = s.psbhr) ∧ (s.cfg.variant = .sag → t.bhr = s.bhr) ∧
      t.pht = s.pht ∧ t.pspht = s.pspht ∧ s.SamePorts t ∧ t.uop = some .done

/-- R89: SR_SET with W values loads them, `values[0]` most significant; with another number it raises LengthMismatch and the
register is unchanged. -/
def Obligations.SrSetResult : Prop :=
  ∀ (reg values : Bits) (s : State), s.Inv → toNumber reg < histCount s.cfg →
    decode (.micro 0b0100#4 [reg, values]) = .ok (.srSet reg values) ∧
    (values.length = s.cfg.histW → ∃ t, exec (.srSet reg values) s = .next t ∧
      t.readHist (toNumber reg) = values ∧
      (∀ r, r < histCount s.cfg → r ≠ toNumber reg → t.readHist r = s.readHist r) ∧
      (s.cfg.variant ≠ .sag → t.psbhr = s.psbhr) ∧ (s.cfg.variant = .sag → t.bhr = s.bhr) ∧
      t.pht = s.pht ∧ t.pspht = s.pspht ∧ s.SamePorts t ∧ t.uop = some .done) ∧
    (values.length ≠ s.cfg.histW → exec (.srSet reg values) s =
      .next { s with uop := some (.raised (.lengthMismatch values.length s.cfg.histW)) })

/-- R92, R93 in an engine with a register bank (SAg): a key of K bits reads the register it selects, or shifts one Bit into
it and leaves every other register, the table, CFG and the ports as they are; a key of another width raises
LengthMismatch and changes nothing. -/
def Obligations.BankResults : Prop :=
  ∀ (key : Bits) (b : Bit) (s : State), s.Inv → s.cfg.variant = .sag →
    decode (.micro 0b0101#4 [key]) = .ok (.rbRead key) ∧ decode (.micro 0b0110#4 [key, [b]]) = .ok (.rbInsert key b) ∧
    (key.length = s.cfg.hashW →
      exec (.rbRead key) s =
        .next { s with uop := some (.bits (Memory.read s.cfg.histW s.psbhr (toNumber key))) } ∧
      exec (.rbInsert key b) s = .next { s with
        psbhr := Memory.write s.cfg.histW s.psbhr (toNumber key)
          (shin (Memory.read s.cfg.histW s.psbhr (toNumber key)) b), uop := some .done }) ∧
    (key.length ≠ s.cfg.hashW →
      exec (.rbRead key) s = .next { s with uop := some (.raised (.lengthMismatch key.length s.cfg.hashW)) } ∧
      exec (.rbInsert key b) s = .next { s with uop := some (.raised (.lengthMismatch key.length s.cfg.hashW)) })

/-- R20 lets GAg and GAs be read as a bank of one register; RB_READ and RB_INSERT then take the key of no bit and act on BHR
(log 4, the model's choice). -/
def Obligations.BankOfOneRegister : Prop :=
  ∀ (b : Bit) (s : State), s.cfg.variant ≠ .sag →
    exec (.rbRead []) s = .next { s with uop := some (.bits s.bhr) } ∧
    exec (.rbInsert [] b) s = .next { s with bhr := shin s.bhr b, uop := some .done }

/-! ### Micro-operations: counters -/

/-- R96, R97: CTR_INC and CTR_DEC keep the width and saturate: `min(val + 1, 2^S − 1)` and `val − 1` with floor 0. -/
def Obligations.CounterStepsSaturate : Prop :=
  ∀ (c : Bits) (s : State),
    decode (.micro 0b0111#4 [c]) = .ok (.ctrInc c) ∧ decode (.micro 0b1000#4 [c]) = .ok (.ctrDec c) ∧ ∃ u d,
    exec (.ctrInc c) s = .next { s with uop := some (.bits u) } ∧
    exec (.ctrDec c) s = .next { s with uop := some (.bits d) } ∧
    u.length = c.length ∧ toNumber u = min (toNumber c + 1) (2 ^ c.length - 1) ∧
    d.length = c.length ∧ toNumber d = toNumber c - 1

/-- R98: CTR_PRED of a counter with S ≥ 1: TAKEN iff `val(c) ≥ 2^(S−1)`, equivalently iff its leading bit is ONE. -/
def Obligations.CounterClassIsUpperHalf : Prop :=
  ∀ (c : Bits) (s : State), 1 ≤ c.length → decode (.micro 0b1001#4 [c]) = .ok (.ctrPred c) ∧ ∃ o,
    exec (.ctrPred c) s = .next { s with uop := some (.outcome o) } ∧
    (o = .taken ↔ 2 ^ (c.length - 1) ≤ toNumber c) ∧ (o = .taken ↔ c.head? = some .one)

/-- R101. (a) No sequence of steps leaves `[0, 2^S − 1]` or changes the width. (b) `2^S − 1` increments reach the top and
`2^S − 1` decrements reach 0 from any value. (c) The class is monotone in the value. (d) For S ≥ 2 a counter at a bound keeps
its class after one step away from it (hysteresis). -/
def Obligations.SaturatingCounterLaws : Prop :=
  (∀ (c : Bits) (os : List BranchResult), (os.foldl stepCounter c).length = c.length ∧
    toNumber (os.foldl stepCounter c) ≤ 2 ^ c.length - 1) ∧
  (∀ (c : Bits) (n : Nat), 2 ^ c.length - 1 ≤ n →
    toNumber ((List.replicate n BranchResult.taken).foldl stepCounter c) = 2 ^ c.length - 1 ∧
    toNumber ((List.replicate n BranchResult.notTaken).foldl stepCounter c) = 0) ∧
  (∀ c d : Bits, c.length = d.length → toNumber c ≤ toNumber d → valueClass c = .taken → valueClass d = .taken) ∧
  (∀ c : Bits, 2 ≤ c.length → toNumber c = 2 ^ c.length - 1 → valueClass (stepCounter c .notTaken) = .taken) ∧
  (∀ c : Bits, 2 ≤ c.length → toNumber c = 0 → valueClass (stepCounter c .taken) = .notTaken)

/-- R90: however many Bits are inserted, a register holds exactly its W Bits, and after at least W of them it holds the last W
in order: no older Bit can be observed. -/
def Obligations.ShiftRegisterKeepsLastBits : Prop :=
  ∀ h bs : Bits, (bs.foldl shin h).length = h.length ∧
    (h.length ≤ bs.length → bs.foldl shin h = bs.drop (bs.length - h.length))

/-! ### Micro-operations: table and hash -/

/-- R103: CACHE_READ with a key of TKW bits returns the block at slot `val(k)`; a key of another width raises
LengthMismatch; nothing else changes. -/
def Obligations.CacheReadResult : Prop :=
  ∀ (key : Bits) (s : State),
    decode (.micro 0b1010#4 [key]) = .ok (.cacheRead key) ∧
    (key.length = s.cfg.tableKeyW →
      exec (.cacheRead key) s = .next { s with uop := some (.bits (s.readSlot (toNumber key))) }) ∧
    (key.length ≠ s.cfg.tableKeyW →
      exec (.cacheRead key) s = .next { s with uop := some (.raised (.lengthMismatch key.length s.cfg.tableKeyW)) })

/-- R104, R105: CACHE_WRITE and CACHE_UPDATE with a key of TKW bits and a block of S bits put the block into slot `val(k)`;
every other slot reads as before, and the histories, CFG and the ports are unchanged. The key width is checked before the
block width (R156, spec decision D13), and either mismatch raises LengthMismatch and changes nothing. -/
def Obligations.CacheWriteOverwritesOneSlot : Prop :=
  ∀ (key v : Bits) (i : Instr) (s : State), i = .cacheWrite key v ∨ i = .cacheUpdate key v →
    decode (.micro 0b1011#4 [key, v]) = .ok (.cacheWrite key v) ∧
    decode (.micro 0b1100#4 [key, v]) = .ok (.cacheUpdate key v) ∧
    (s.Inv → key.length = s.cfg.tableKeyW → v.length = s.cfg.ctrW →
      ∃ t, exec i s = .next t ∧ t.readSlot (toNumber key) = v ∧
        (∀ j, j ≠ toNumber key → t.readSlot j = s.readSlot j) ∧
        (s.cfg.variant = .gas → t.pht = s.pht) ∧ (s.cfg.variant ≠ .gas → t.pspht = s.pspht) ∧
        t.bhr = s.bhr ∧ t.psbhr = s.psbhr ∧ s.SamePorts t ∧ t.uop = some .done) ∧
    (key.length ≠ s.cfg.tableKeyW →
      exec i s = .next { s with uop := some (.raised (.lengthMismatch key.length s.cfg.tableKeyW)) }) ∧
    (key.length = s.cfg.tableKeyW → v.length ≠ s.cfg.ctrW →
      exec i s = .next { s with uop := some (.raised (.lengthMismatch v.length s.cfg.ctrW)) })

/-- R106: reading after a write gives the block until the next write to that slot, a write changes no other slot, and a table
keeps its canonical form. -/
def Obligations.CacheLaws : Prop :=
  ∀ (w size : Nat) (m : Memory) (j : Nat) (v : Bits), Memory.wf w size m = true → j < size → v.length = w →
    Memory.read w (Memory.write w m j v) j = v ∧
    (∀ k, k ≠ j → Memory.read w (Memory.write w m j v) k = Memory.read w m k) ∧
    Memory.wf w size (Memory.write w m j v) = true ∧ (Memory.read w m j).length = w

/-- The canonical form is one form: two tables in it that read alike at every slot are the same data (log 5). -/
def Obligations.EqualTablesAreEqualData : Prop :=
  ∀ (w size : Nat) (m n : Memory), Memory.wf w size m = true → Memory.wf w size n = true →
    (∀ j, j < size → Memory.read w m j = Memory.read w n j) → m = n

/-- R107, R108 (spec decisions D1, D4): HASH_XOR in XOR mode with K ≥ 1 gives K bits, of which element `j` is the XOR of the
address elements `i` with `i mod K = j`. Another mode raises UnsupportedHashMode, checked before K = 0, which raises
LengthMismatch(0, K) (R156). That this is so in GAg too, which has no hash (R7), and for an
operand of another length than N, is the model's choice (logs 13, 14). -/
def Obligations.HashXorFoldsAddress : Prop :=
  ∀ (a : Bits) (s : State),
    decode (.micro 0b1101#4 [a]) = .ok (.hashXor a) ∧
    (s.cfg.hashMode = 0b00#2 → 1 ≤ s.cfg.hashW → ∃ h : Bits,
      exec (.hashXor a) s = .next { s with uop := some (.bits h) } ∧ h.length = s.cfg.hashW ∧
      ∀ j : Nat, j < s.cfg.hashW → h[j]? = some (Bit.ofBool (decide
        (((List.range a.length).filter fun i => decide (i % s.cfg.hashW = j) && decide (a[i]? = some .one)).length % 2 = 1)))) ∧
    (s.cfg.hashMode ≠ 0b00#2 →
      exec (.hashXor a) s = .next { s with uop := some (.raised (.unsupportedHashMode s.cfg.hashMode)) }) ∧
    (s.cfg.hashMode = 0b00#2 → s.cfg.hashW = 0 →
      exec (.hashXor a) s = .next { s with uop := some (.raised (.lengthMismatch 0 0)) })

/-- R109 (b), (d), and the corner K = N of R108: the hash is linear, reaches every K-bit value when K ≤ N, and is the identity
for K = N. -/
def Obligations.HashLaws : Prop :=
  ∀ k : Nat, 1 ≤ k →
    (∀ a b : Bits, a.length = b.length → hashFold k (xorBits a b) = xorBits (hashFold k a) (hashFold k b)) ∧
    (∀ (n : Nat) (h : Bits), k ≤ n → h.length = k → ∃ a : Bits, a.length = n ∧ hashFold k a = h) ∧
    (∀ a : Bits, a.length = k → hashFold k a = a)

/-! ### Whole-machine rules -/

/-- R26: among the commands only UPDATE and RESET write state of the engine; PREDICT and MONITOR leave all of it. -/
def Obligations.OnlyUpdateAndResetWrite : Prop :=
  ∀ (i : Instr) (s t : State), i.isCommand = true → exec i s = .next t → ¬ s.SameEngine t →
    (∃ a o, i = .update a o) ∨ i = .reset

/-- R21: no step changes the configuration record. -/
def Obligations.ConfigurationIsReadOnly : Prop :=
  ∀ s t : State, step s = .next t → t.cfg = s.cfg

/-- R68: a micro-operation is visible at no port: it leaves CFG, the pending requests, RESP and MON as they are. -/
def Obligations.MicroOpsAreInvisibleAtPorts : Prop :=
  ∀ (i : Instr) (s t : State), i.isCommand = false → exec i s = .next t → s.SamePorts t

/-- R130: one UPDATE is its phases READ, STEP, WRITE and SHIFT as micro-operations: CACHE_READ of the key, CTR_INC or CTR_DEC of
the counter, CACHE_WRITE of the result, then SR_SHIFT (GAg, GAs) or RB_INSERT (SAg) of the outcome's Bit leave the engine
in the state that UPDATE leaves it in. -/
def Obligations.UpdateIsItsMicroOps : Prop :=
  ∀ (a : Bits) (o : BranchResult) (s : State), s.Inv → a.length = s.cfg.addrW →
    ∃ c d p q r t u,
      exec (.cacheRead (s.slotKey a)) s = .next p ∧ p.uop = some (.bits c) ∧
      exec (match o with | .taken => .ctrInc c | .notTaken => .ctrDec c) p = .next q ∧ q.uop = some (.bits d) ∧
      exec (.cacheWrite (s.slotKey a) d) q = .next r ∧
      exec (match s.cfg.variant with
        | .gag => .srShift [] (outcomeBit o)
        | .gas => .srShift [] (outcomeBit o)
        | .sag => .rbInsert (hashFold s.cfg.hashW a) (outcomeBit o)) r = .next t ∧
      exec (.update a o) s = .next u ∧ u.SameEngine t

/-- R20-R25, R65, R158: every step, of commands and of micro-operations, keeps the invariant of a constructed engine: the
configuration stays legal, every register and block keeps its fixed width, tables keep their canonical form inside their
size, what the variant does not have stays absent, and the response is one of the words that occur. -/
def Obligations.EveryStepKeepsInv : Prop :=
  ∀ s t : State, s.Inv → step s = .next t → t.Inv

/-- R170, R173: the initial state of every legal configuration, and the state after reset, satisfy the invariant. -/
def Obligations.InitialStatesSatisfyInv : Prop :=
  (∀ cfg : Config, cfg.Legal → (State.init cfg).Inv) ∧ State.reset.Inv

/-- R170, R171: `init(CFG)` holds ZERO in every register and slot, and the first PREDICT of any address of N bits answers
NOT_TAKEN in every variant. -/
def Obligations.InitIsZeroAndPredictsNotTaken : Prop :=
  ∀ (cfg : Config) (a : Bits), cfg.Legal → a.length = cfg.addrW →
    (State.init cfg).cfg = cfg ∧
    (∀ r, r < histCount cfg → (State.init cfg).readHist r = zeros cfg.histW) ∧
    (∀ j, (State.init cfg).readSlot j = zeros cfg.ctrW) ∧
    exec (.predict a) (State.init cfg) = .next { State.init cfg with resp := some 0b000#3, mon := none }

/-- R158, R170 (spec decisions D8, D18): construction makes the checks in their order and yields `init(CFG)` when all pass; a
failed check yields no engine. The `info` of an error is not stated: the spec gives none (log 11). -/
def Obligations.ConstructionChecksInOrder : Prop :=
  ∀ r : CfgRecord,
    (r.variant = 0b11#2 → construct r = .refused .notAnEngine) ∧
    (r.variant ≠ 0b11#2 → (r.histW = 0 ∨ r.ctrW = 0 ∨ r.addrW = 0) →
      ∃ g w, construct r = .refused (.badConfiguration (.lengthMismatch g w))) ∧
    (r.variant = 0b01#2 ∨ r.variant = 0b10#2 → 1 ≤ r.histW → 1 ≤ r.ctrW → 1 ≤ r.addrW →
      (r.hashW = 0 ∨ r.addrW < r.hashW) → ∃ g w, construct r = .refused (.badConfiguration (.lengthMismatch g w))) ∧
    (r.variant = 0b01#2 ∨ r.variant = 0b10#2 → 1 ≤ r.histW → 1 ≤ r.ctrW → 1 ≤ r.hashW → r.hashW ≤ r.addrW →
      r.hashMode ≠ 0b00#2 → construct r = .refused (.badConfiguration (.unsupportedHashMode r.hashMode))) ∧
    (∀ cfg : Config, configRecord cfg = r → cfg.Legal → construct r = .next (State.init cfg))

/-- R71, R72, R142 (spec decisions D25, D26): STEP assembles to its PREDICT and then its UPDATE; the requests carry the address
literal as N bits; a literal of `2^N` or more is refused. -/
def Obligations.AssemblerMakesStep : Prop :=
  ∀ (n addr : Nat) (o : BranchResult),
    (addr < 2 ^ n → ∃ a : Bits, a.length = n ∧ toNumber a = addr ∧
      assembleLine n (.step addr o) = some [encode n (.predict a), encode n (.update a o)] ∧
      assembleLine n (.predict addr) = some [encode n (.predict a)] ∧
      assembleLine n (.update addr o) = some [encode n (.update a o)]) ∧
    (2 ^ n ≤ addr → assembleLine n (.step addr o) = none ∧ assembleLine n (.predict addr) = none ∧
      assembleLine n (.update addr o) = none)
end

