-- ==== Sys2Proof/Laws/Bits.lean ====
section
/-! SUPPORT. Laws of bits, sequences read as numbers, shifts and counters (spec/40_substrate.md §1, §2, §4). -/

namespace Sys2Proof.Machine

theorem bit_toNat_lt_two (b : Bit) : b.toNat < 2 := by cases b <;> decide

@[simp] theorem zeros_length (w : Nat) : (zeros w).length = w := by simp [zeros]

/-- The loop of TO_NUMBER with a running value. -/
theorem foldl_toNumber (s : Bits) (n : Nat) :
    s.foldl (fun n b => 2 * n + b.toNat) n = n * 2 ^ s.length + toNumber s := by
  induction s generalizing n with
  | nil => simp [toNumber]
  | cons b s ih =>
    have h := ih (2 * n + b.toNat)
    have h0 := ih (2 * 0 + b.toNat)
    simp only [List.foldl_cons, List.length_cons, toNumber] at *
    rw [h, h0]
    ring

@[simp] theorem toNumber_nil : toNumber [] = 0 := rfl

theorem toNumber_cons (b : Bit) (s : Bits) : toNumber (b :: s) = b.toNat * 2 ^ s.length + toNumber s := by
  simpa [toNumber] using foldl_toNumber s b.toNat

theorem toNumber_append (a b : Bits) : toNumber (a ++ b) = toNumber a * 2 ^ b.length + toNumber b := by
  simpa [toNumber] using foldl_toNumber b (toNumber a)

/-- R84: the number of a `w`-bit sequence is below `2^w`. -/
theorem toNumber_lt (s : Bits) : toNumber s < 2 ^ s.length := by
  induction s with
  | nil => simp
  | cons b s ih =>
    have hb := bit_toNat_lt_two b
    rw [toNumber_cons, List.length_cons, pow_succ]
    nlinarith [Nat.two_pow_pos s.length]

theorem toNumber_lt_of_length {s : Bits} {w : Nat} (h : s.length = w) : toNumber s < 2 ^ w := h ▸ toNumber_lt s

theorem toNumber_zeros (w : Nat) : toNumber (zeros w) = 0 := by
  induction w with
  | zero => rfl
  | succ w ih =>
    have : zeros (w + 1) = Bit.zero :: zeros w := rfl
    rw [this, toNumber_cons, ih]; simp [Bit.toNat]

/-- Sequences of one width with one value are equal. -/
theorem toNumber_injective {a b : Bits} (hl : a.length = b.length) (h : toNumber a = toNumber b) : a = b := by
  induction a generalizing b with
  | nil => cases b with
    | nil => rfl
    | cons y b => simp at hl
  | cons x a ih =>
    cases b with
    | nil => simp at hl
    | cons y b =>
      have hl' : a.length = b.length := by simpa using hl
      rw [toNumber_cons, toNumber_cons, hl'] at h
      have ha := toNumber_lt_of_length hl'
      have hb := toNumber_lt b
      cases x <;> cases y <;> simp only [Bit.toNat] at h
      · rw [ih hl' (by omega)]
      · omega
      · omega
      · rw [ih hl' (by omega)]

theorem toNumber_eq_iff {a b : Bits} (hl : a.length = b.length) : toNumber a = toNumber b ↔ a = b :=
  ⟨toNumber_injective hl, congrArg toNumber⟩

@[simp] theorem zext_length (w x : Nat) : (zext w x).length = w := by
  induction w generalizing x with
  | zero => rfl
  | succ w ih => simp [zext, ih]

theorem bit_ofBool_toNat (b : Bool) : (Bit.ofBool b).toNat = b.toNat := by cases b <;> rfl

/-- R11: `zext_W(x)` has the value `x` modulo `2^W`. -/
theorem toNumber_zext (w x : Nat) : toNumber (zext w x) = x % 2 ^ w := by
  induction w with
  | zero => simp [zext, Nat.mod_one]
  | succ w ih =>
    rw [zext, toNumber_cons, zext_length, ih, bit_ofBool_toNat, Nat.mod_pow_succ, Nat.testBit_eq_decide_div_mod_eq]
    rcases Nat.mod_two_eq_zero_or_one (x / 2 ^ w) with h | h <;> simp [h]
    ring

@[simp] theorem concatBits_eq (a b : Bits) : concatBits a b = a ++ b := rfl

@[simp] theorem shin_length (h : Bits) (b : Bit) : (shin h b).length = h.length := by simp [shin]

/-- R88: the value of a shifted register, `((h << 1) | b) mod 2^W`. -/
theorem toNumber_shin (h : Bits) (b : Bit) : toNumber (shin h b) = (2 * toNumber h + b.toNat) % 2 ^ h.length := by
  cases h with
  | nil => simp [shin, Nat.mod_one]
  | cons x h =>
    have hb := bit_toNat_lt_two b
    have hh := toNumber_lt h
    have e : shin (x :: h) b = h ++ [b] := rfl
    have e1 : toNumber [b] = b.toNat := by simp [toNumber]
    rw [e, toNumber_append, e1, toNumber_cons x h, List.length_singleton, List.length_cons, pow_succ (n := h.length), pow_one]
    have : 2 * (x.toNat * 2 ^ h.length + toNumber h) + b.toNat
        = (toNumber h * 2 + b.toNat) + (2 ^ h.length * 2) * x.toNat := by ring
    rw [this, Nat.add_mul_mod_self_left, Nat.mod_eq_of_lt (by omega)]

@[simp] theorem incCounter_length (c : Bits) : (incCounter c).length = c.length := by
  unfold incCounter; split <;> simp

@[simp] theorem decCounter_length (c : Bits) : (decCounter c).length = c.length := by
  unfold decCounter; split <;> simp

@[simp] theorem stepCounter_length (c : Bits) (o : BranchResult) : (stepCounter c o).length = c.length := by
  cases o <;> simp [stepCounter]

/-- R96: the value after an increment. -/
theorem toNumber_incCounter (c : Bits) : toNumber (incCounter c) = min (toNumber c + 1) (2 ^ c.length - 1) := by
  have h := toNumber_lt c
  unfold incCounter
  split
  · rw [toNumber_zext, Nat.mod_eq_of_lt (by omega)]; omega
  · omega

/-- R97: the value after a decrement. -/
theorem toNumber_decCounter (c : Bits) : toNumber (decCounter c) = toNumber c - 1 := by
  have h := toNumber_lt c
  unfold decCounter
  split
  · rw [toNumber_zext, Nat.mod_eq_of_lt (by omega)]
  · omega

/-- R98: the class is TAKEN iff the value is in the upper half. -/
theorem valueClass_taken_iff (c : Bits) : valueClass c = .taken ↔ 2 ^ (c.length - 1) ≤ toNumber c := by
  unfold valueClass; split <;> simp_all

@[simp] theorem xorBits_length {a b : Bits} (h : a.length = b.length) : (xorBits a b).length = a.length := by
  simp [xorBits, h]

end Sys2Proof.Machine
end

