-- ==== Sys2Proof/Laws/Memory.lean ====
section
/-! SUPPORT. Laws of tables and banks (spec/40_substrate.md R106, R94): reading after a write, and the canonical form. -/

namespace Sys2Proof.Machine

@[simp] theorem read_nil (w a : Nat) : Memory.read w [] a = zeros w := rfl

/-- What the canonical form says of its first entry and of the rest. -/
theorem wfFrom_cons_iff (w size lo k : Nat) (v : Bits) (m : Memory) :
    Memory.wfFrom w size lo ((k, v) :: m) = true ↔
      lo ≤ k ∧ k < size ∧ v.length = w ∧ v ≠ zeros w ∧ Memory.wfFrom w size (k + 1) m = true := by
  simp [Memory.wfFrom, and_assoc]

/-- A lower bound may be lowered. -/
theorem wfFrom_mono {w size lo lo' : Nat} {m : Memory} (hl : lo' ≤ lo) (h : Memory.wfFrom w size lo m = true) :
    Memory.wfFrom w size lo' m = true := by
  cases m with
  | nil => rfl
  | cons e m =>
    obtain ⟨k, v⟩ := e
    rw [wfFrom_cons_iff] at *
    exact ⟨by omega, h.2⟩

/-- Below its lower bound a table lists nothing. -/
theorem read_below {w size lo a : Nat} {m : Memory} (h : Memory.wfFrom w size lo m = true) (ha : a < lo) :
    Memory.read w m a = zeros w := by
  induction m generalizing lo with
  | nil => rfl
  | cons e m ih =>
    obtain ⟨k, v⟩ := e
    rw [wfFrom_cons_iff] at h
    rw [Memory.read, if_neg (by omega)]
    exact ih h.2.2.2.2 (by omega)

/-- At and above its size a table lists nothing. -/
theorem read_above {w size lo a : Nat} {m : Memory} (h : Memory.wfFrom w size lo m = true) (ha : size ≤ a) :
    Memory.read w m a = zeros w := by
  induction m generalizing lo with
  | nil => rfl
  | cons e m ih =>
    obtain ⟨k, v⟩ := e
    rw [wfFrom_cons_iff] at h
    rw [Memory.read, if_neg (by omega)]
    exact ih h.2.2.2.2

/-- Every entry of a table in canonical form has the entry width. -/
theorem read_length {w size lo : Nat} {m : Memory} (h : Memory.wfFrom w size lo m = true) (a : Nat) :
    (Memory.read w m a).length = w := by
  induction m generalizing lo with
  | nil => simp
  | cons e m ih =>
    obtain ⟨k, v⟩ := e
    rw [wfFrom_cons_iff] at h
    rw [Memory.read]
    split
    · exact h.2.2.1
    · exact ih h.2.2.2.2

/-- A write leaves every other slot alone, in every list of entries. -/
theorem read_write_other (w : Nat) (m : Memory) {a b : Nat} (v : Bits) (hab : b ≠ a) :
    Memory.read w (Memory.write w m a v) b = Memory.read w m b := by
  induction m with
  | nil =>
    simp only [Memory.write]
    split
    · rfl
    · simp [Memory.read, Ne.symm hab]
  | cons e m ih =>
    obtain ⟨k, u⟩ := e
    simp only [Memory.write]
    split
    · split
      · rfl
      · simp [Memory.read, Ne.symm hab]
    · split
      · next h =>
        subst h
        split
        · simp [Memory.read, Ne.symm hab]
        · simp [Memory.read, Ne.symm hab]
      · rw [Memory.read, Memory.read, ih]

/-- A read of the slot just written gives what was written. -/
theorem read_write_same {w size lo a : Nat} {m : Memory} (h : Memory.wfFrom w size lo m = true) (v : Bits) :
    Memory.read w (Memory.write w m a v) a = v := by
  induction m generalizing lo with
  | nil =>
    simp only [Memory.write]
    split
    · next h => simp [h]
    · simp [Memory.read]
  | cons e m ih =>
    obtain ⟨k, u⟩ := e
    have h' := (wfFrom_cons_iff ..).mp h
    simp only [Memory.write]
    split
    · next hk =>
      split
      · next hv =>
        rw [hv]
        exact read_below (lo := k) (size := size) ((wfFrom_cons_iff ..).mpr ⟨le_refl k, h'.2⟩) hk
      · simp [Memory.read]
    · split
      · next hk =>
        subst hk
        split
        · next hv => rw [hv]; exact read_below h'.2.2.2.2 (by omega)
        · simp [Memory.read]
      · next hk =>
        rw [Memory.read, if_neg (by omega)]
        exact ih h'.2.2.2.2

/-- A write keeps the canonical form. -/
theorem wfFrom_write {w size lo a : Nat} {m : Memory} {v : Bits} (h : Memory.wfFrom w size lo m = true) (hlo : lo ≤ a)
    (ha : a < size) (hv : v.length = w) : Memory.wfFrom w size lo (Memory.write w m a v) = true := by
  induction m generalizing lo with
  | nil =>
    simp only [Memory.write]
    split
    · rfl
    · next hz => exact (wfFrom_cons_iff ..).mpr ⟨hlo, ha, hv, hz, rfl⟩
  | cons e m ih =>
    obtain ⟨k, u⟩ := e
    have h' := (wfFrom_cons_iff ..).mp h
    simp only [Memory.write]
    split
    · next hk =>
      split
      · exact h
      · next hz =>
        exact (wfFrom_cons_iff ..).mpr ⟨hlo, ha, hv, hz, (wfFrom_cons_iff ..).mpr ⟨hk, h'.2⟩⟩
    · split
      · next hk =>
        subst hk
        split
        · exact wfFrom_mono (by omega) h'.2.2.2.2
        · next hz => exact (wfFrom_cons_iff ..).mpr ⟨hlo, ha, hv, hz, h'.2.2.2.2⟩
      · next hk =>
        exact (wfFrom_cons_iff ..).mpr
          ⟨h'.1, h'.2.1, h'.2.2.1, h'.2.2.2.1, ih h'.2.2.2.2 (by omega)⟩

theorem wf_write {w size a : Nat} {m : Memory} {v : Bits} (h : Memory.wf w size m = true) (ha : a < size)
    (hv : v.length = w) : Memory.wf w size (Memory.write w m a v) = true := wfFrom_write h (Nat.zero_le a) ha hv

@[simp] theorem wf_nil (w size : Nat) : Memory.wf w size [] = true := rfl

@[simp] theorem entries_length (w n : Nat) (m : Memory) : (Memory.entries w n m).length = n := by simp [Memory.entries]

theorem entries_get {w n j : Nat} (m : Memory) (h : j < n) : (Memory.entries w n m)[j]? = some (Memory.read w m j) := by
  simp [Memory.entries, h]

end Sys2Proof.Machine
end

