-- ==== Sys2Proof/Laws/State.lean ====
section
/-! SUPPORT. Laws of State: one lemma per field per update, so that no later proof unfolds an update. -/

namespace Sys2Proof.Machine

/-! ### The ports -/

@[simp] theorem answer_cfg (s : State) (p : Bit) : (s.answer p).cfg = s.cfg := rfl
@[simp] theorem answer_bhr (s : State) (p : Bit) : (s.answer p).bhr = s.bhr := rfl
@[simp] theorem answer_psbhr (s : State) (p : Bit) : (s.answer p).psbhr = s.psbhr := rfl
@[simp] theorem answer_pht (s : State) (p : Bit) : (s.answer p).pht = s.pht := rfl
@[simp] theorem answer_pspht (s : State) (p : Bit) : (s.answer p).pspht = s.pspht := rfl
@[simp] theorem answer_pending (s : State) (p : Bit) : (s.answer p).pending = s.pending := rfl
@[simp] theorem answer_resp (s : State) (p : Bit) : (s.answer p).resp = some (respond p noError) := rfl
@[simp] theorem answer_mon (s : State) (p : Bit) : (s.answer p).mon = none := rfl
@[simp] theorem answer_uop (s : State) (p : Bit) : (s.answer p).uop = s.uop := rfl

@[simp] theorem raiseError_cfg (s : State) (e : EngineError) : (s.raiseError e).cfg = s.cfg := rfl
@[simp] theorem raiseError_bhr (s : State) (e : EngineError) : (s.raiseError e).bhr = s.bhr := rfl
@[simp] theorem raiseError_psbhr (s : State) (e : EngineError) : (s.raiseError e).psbhr = s.psbhr := rfl
@[simp] theorem raiseError_pht (s : State) (e : EngineError) : (s.raiseError e).pht = s.pht := rfl
@[simp] theorem raiseError_pspht (s : State) (e : EngineError) : (s.raiseError e).pspht = s.pspht := rfl
@[simp] theorem raiseError_pending (s : State) (e : EngineError) : (s.raiseError e).pending = s.pending := rfl
@[simp] theorem raiseError_resp (s : State) (e : EngineError) : (s.raiseError e).resp = some (respond .zero e.code) := rfl
@[simp] theorem raiseError_mon (s : State) (e : EngineError) : (s.raiseError e).mon = none := rfl
@[simp] theorem raiseError_uop (s : State) (e : EngineError) : (s.raiseError e).uop = s.uop := rfl

@[simp] theorem giveUop_cfg (s : State) (r : UopResult) : (s.giveUop r).cfg = s.cfg := rfl
@[simp] theorem giveUop_bhr (s : State) (r : UopResult) : (s.giveUop r).bhr = s.bhr := rfl
@[simp] theorem giveUop_psbhr (s : State) (r : UopResult) : (s.giveUop r).psbhr = s.psbhr := rfl
@[simp] theorem giveUop_pht (s : State) (r : UopResult) : (s.giveUop r).pht = s.pht := rfl
@[simp] theorem giveUop_pspht (s : State) (r : UopResult) : (s.giveUop r).pspht = s.pspht := rfl
@[simp] theorem giveUop_pending (s : State) (r : UopResult) : (s.giveUop r).pending = s.pending := rfl
@[simp] theorem giveUop_resp (s : State) (r : UopResult) : (s.giveUop r).resp = s.resp := rfl
@[simp] theorem giveUop_mon (s : State) (r : UopResult) : (s.giveUop r).mon = s.mon := rfl
@[simp] theorem giveUop_uop (s : State) (r : UopResult) : (s.giveUop r).uop = some r := rfl

@[simp] theorem issue_cfg (s : State) (rs : List Request) : (s.issue rs).cfg = s.cfg := rfl
@[simp] theorem issue_bhr (s : State) (rs : List Request) : (s.issue rs).bhr = s.bhr := rfl
@[simp] theorem issue_psbhr (s : State) (rs : List Request) : (s.issue rs).psbhr = s.psbhr := rfl
@[simp] theorem issue_pht (s : State) (rs : List Request) : (s.issue rs).pht = s.pht := rfl
@[simp] theorem issue_pspht (s : State) (rs : List Request) : (s.issue rs).pspht = s.pspht := rfl
@[simp] theorem issue_pending (s : State) (rs : List Request) : (s.issue rs).pending = s.pending ++ rs := rfl
@[simp] theorem issue_resp (s : State) (rs : List Request) : (s.issue rs).resp = s.resp := rfl
@[simp] theorem issue_mon (s : State) (rs : List Request) : (s.issue rs).mon = s.mon := rfl
@[simp] theorem issue_uop (s : State) (rs : List Request) : (s.issue rs).uop = s.uop := rfl

/-! ### The table and the histories: what the update of the one leaves alone -/

@[simp] theorem setTable_cfg (s : State) (m : Memory) : (s.setTable m).cfg = s.cfg := by unfold State.setTable; split <;> rfl
@[simp] theorem setTable_bhr (s : State) (m : Memory) : (s.setTable m).bhr = s.bhr := by unfold State.setTable; split <;> rfl
@[simp] theorem setTable_psbhr (s : State) (m : Memory) : (s.setTable m).psbhr = s.psbhr := by unfold State.setTable; split <;> rfl
@[simp] theorem setTable_pending (s : State) (m : Memory) : (s.setTable m).pending = s.pending := by unfold State.setTable; split <;> rfl
@[simp] theorem setTable_resp (s : State) (m : Memory) : (s.setTable m).resp = s.resp := by unfold State.setTable; split <;> rfl
@[simp] theorem setTable_mon (s : State) (m : Memory) : (s.setTable m).mon = s.mon := by unfold State.setTable; split <;> rfl
@[simp] theorem setTable_uop (s : State) (m : Memory) : (s.setTable m).uop = s.uop := by unfold State.setTable; split <;> rfl

@[simp] theorem writeSlot_cfg (s : State) (j : Nat) (v : Bits) : (s.writeSlot j v).cfg = s.cfg := by simp [State.writeSlot]
@[simp] theorem writeSlot_bhr (s : State) (j : Nat) (v : Bits) : (s.writeSlot j v).bhr = s.bhr := by simp [State.writeSlot]
@[simp] theorem writeSlot_psbhr (s : State) (j : Nat) (v : Bits) : (s.writeSlot j v).psbhr = s.psbhr := by simp [State.writeSlot]
@[simp] theorem writeSlot_pending (s : State) (j : Nat) (v : Bits) : (s.writeSlot j v).pending = s.pending := by simp [State.writeSlot]
@[simp] theorem writeSlot_resp (s : State) (j : Nat) (v : Bits) : (s.writeSlot j v).resp = s.resp := by simp [State.writeSlot]
@[simp] theorem writeSlot_mon (s : State) (j : Nat) (v : Bits) : (s.writeSlot j v).mon = s.mon := by simp [State.writeSlot]
@[simp] theorem writeSlot_uop (s : State) (j : Nat) (v : Bits) : (s.writeSlot j v).uop = s.uop := by simp [State.writeSlot]

@[simp] theorem writeHist_cfg (s : State) (r : Nat) (v : Bits) : (s.writeHist r v).cfg = s.cfg := by unfold State.writeHist; split <;> rfl
@[simp] theorem writeHist_pht (s : State) (r : Nat) (v : Bits) : (s.writeHist r v).pht = s.pht := by unfold State.writeHist; split <;> rfl
@[simp] theorem writeHist_pspht (s : State) (r : Nat) (v : Bits) : (s.writeHist r v).pspht = s.pspht := by unfold State.writeHist; split <;> rfl
@[simp] theorem writeHist_pending (s : State) (r : Nat) (v : Bits) : (s.writeHist r v).pending = s.pending := by unfold State.writeHist; split <;> rfl
@[simp] theorem writeHist_resp (s : State) (r : Nat) (v : Bits) : (s.writeHist r v).resp = s.resp := by unfold State.writeHist; split <;> rfl
@[simp] theorem writeHist_mon (s : State) (r : Nat) (v : Bits) : (s.writeHist r v).mon = s.mon := by unfold State.writeHist; split <;> rfl
@[simp] theorem writeHist_uop (s : State) (r : Nat) (v : Bits) : (s.writeHist r v).uop = s.uop := by unfold State.writeHist; split <;> rfl

@[simp] theorem clear_cfg (s : State) : (s.clear).cfg = s.cfg := by unfold State.clear; split <;> rfl
@[simp] theorem clear_pending (s : State) : (s.clear).pending = s.pending := by unfold State.clear; split <;> rfl
@[simp] theorem clear_resp (s : State) : (s.clear).resp = s.resp := by unfold State.clear; split <;> rfl
@[simp] theorem clear_mon (s : State) : (s.clear).mon = s.mon := by unfold State.clear; split <;> rfl
@[simp] theorem clear_uop (s : State) : (s.clear).uop = s.uop := by unfold State.clear; split <;> rfl

/-! ### The table and the histories, by variant -/

theorem table_gag {s : State} (h : s.cfg.variant = .gag) : s.table = s.pht := by simp [State.table, h]
theorem table_gas {s : State} (h : s.cfg.variant = .gas) : s.table = s.pspht := by simp [State.table, h]
theorem table_sag {s : State} (h : s.cfg.variant = .sag) : s.table = s.pht := by simp [State.table, h]

theorem setTable_gag {s : State} (h : s.cfg.variant = .gag) (m : Memory) : s.setTable m = { s with pht := m } := by
  simp [State.setTable, h]
theorem setTable_gas {s : State} (h : s.cfg.variant = .gas) (m : Memory) : s.setTable m = { s with pspht := m } := by
  simp [State.setTable, h]
theorem setTable_sag {s : State} (h : s.cfg.variant = .sag) (m : Memory) : s.setTable m = { s with pht := m } := by
  simp [State.setTable, h]

theorem readHist_gag {s : State} (h : s.cfg.variant = .gag) (r : Nat) : s.readHist r = s.bhr := by
  simp [State.readHist, h]
theorem readHist_gas {s : State} (h : s.cfg.variant = .gas) (r : Nat) : s.readHist r = s.bhr := by
  simp [State.readHist, h]
theorem readHist_sag {s : State} (h : s.cfg.variant = .sag) (r : Nat) :
    s.readHist r = Memory.read s.cfg.histW s.psbhr r := by
  simp [State.readHist, h]

theorem writeHist_gag {s : State} (h : s.cfg.variant = .gag) (r : Nat) (v : Bits) :
    s.writeHist r v = { s with bhr := v } := by
  simp [State.writeHist, h]
theorem writeHist_gas {s : State} (h : s.cfg.variant = .gas) (r : Nat) (v : Bits) :
    s.writeHist r v = { s with bhr := v } := by
  simp [State.writeHist, h]
theorem writeHist_sag {s : State} (h : s.cfg.variant = .sag) (r : Nat) (v : Bits) :
    s.writeHist r v = { s with psbhr := Memory.write s.cfg.histW s.psbhr r v } := by
  simp [State.writeHist, h]

@[simp] theorem table_setTable (s : State) (m : Memory) : (s.setTable m).table = m := by
  cases h : s.cfg.variant <;> simp [State.setTable, State.table, h]

@[simp] theorem table_writeHist (s : State) (r : Nat) (v : Bits) : (s.writeHist r v).table = s.table := by
  simp [State.table]

@[simp] theorem readHist_setTable (s : State) (m : Memory) (r : Nat) : (s.setTable m).readHist r = s.readHist r := by
  simp [State.readHist]

@[simp] theorem readHist_writeSlot (s : State) (j : Nat) (v : Bits) (r : Nat) :
    (s.writeSlot j v).readHist r = s.readHist r := by simp [State.writeSlot]

@[simp] theorem readSlot_writeHist (s : State) (r : Nat) (v : Bits) (j : Nat) :
    (s.writeHist r v).readSlot j = s.readSlot j := by simp [State.readSlot]

end Sys2Proof.Machine
end

