-- ==== Sys2Proof/Laws/Ops.lean ====
section
/-! SUPPORT. Laws of the shared operations: what each check, each table and bank operation and each ending of an operation can
do, said once. -/

namespace Sys2Proof.Machine

/-! ### Checks -/

@[simp] theorem ok_bind {α β : Type} (a : α) (f : α → Except EngineError β) : (Except.ok a >>= f) = f a := rfl

@[simp] theorem error_bind {α β : Type} (e : EngineError) (f : α → Except EngineError β) :
    ((Except.error e : Except EngineError α) >>= f) = Except.error e := rfl

theorem checkLength_ok {w : Nat} {s : Bits} (h : s.length = w) : checkLength w s = .ok () := if_pos h

theorem checkLength_error {w : Nat} {s : Bits} (h : s.length ≠ w) :
    checkLength w s = .error (.lengthMismatch s.length w) := if_neg h

/-- R153: the index check cannot fire on a key of `w` bits. -/
theorem checkIndex_ok {w : Nat} {k : Bits} (h : k.length = w) : checkIndex (2 ^ w) k = .ok () :=
  if_pos (toNumber_lt_of_length h)

/-! ### Table and bank operations -/

theorem cacheReadOp_ok {s : State} {k : Bits} (h : k.length = s.cfg.tableKeyW) :
    cacheReadOp s k = .ok (s.readSlot (toNumber k)) := by
  simp [cacheReadOp, checkLength_ok h, checkIndex_ok h, pure, Except.pure]

theorem cacheReadOp_error {s : State} {k : Bits} (h : k.length ≠ s.cfg.tableKeyW) :
    cacheReadOp s k = .error (.lengthMismatch k.length s.cfg.tableKeyW) := by
  simp [cacheReadOp, checkLength_error h]

theorem cacheWriteOp_ok {s : State} {k v : Bits} (h : k.length = s.cfg.tableKeyW) (hv : v.length = s.cfg.ctrW) :
    cacheWriteOp s k v = .ok (s.writeSlot (toNumber k) v) := by
  simp [cacheWriteOp, checkLength_ok h, checkLength_ok hv, checkIndex_ok h, pure, Except.pure]

theorem cacheWriteOp_key_error {s : State} {k v : Bits} (h : k.length ≠ s.cfg.tableKeyW) :
    cacheWriteOp s k v = .error (.lengthMismatch k.length s.cfg.tableKeyW) := by
  simp [cacheWriteOp, checkLength_error h]

theorem cacheWriteOp_block_error {s : State} {k v : Bits} (h : k.length = s.cfg.tableKeyW) (hv : v.length ≠ s.cfg.ctrW) :
    cacheWriteOp s k v = .error (.lengthMismatch v.length s.cfg.ctrW) := by
  simp [cacheWriteOp, checkLength_ok h, checkLength_error hv]

theorem bankReadOp_ok {s : State} {k : Bits} (h : k.length = s.cfg.bankKeyW) :
    bankReadOp s k = .ok (s.readHist (toNumber k)) := by
  simp [bankReadOp, checkLength_ok h, checkIndex_ok h, pure, Except.pure]

theorem bankReadOp_error {s : State} {k : Bits} (h : k.length ≠ s.cfg.bankKeyW) :
    bankReadOp s k = .error (.lengthMismatch k.length s.cfg.bankKeyW) := by
  simp [bankReadOp, checkLength_error h]

theorem bankInsertOp_ok {s : State} {k : Bits} (h : k.length = s.cfg.bankKeyW) (b : Bit) :
    bankInsertOp s k b = .ok (s.writeHist (toNumber k) (shin (s.readHist (toNumber k)) b)) := by
  simp [bankInsertOp, checkLength_ok h, checkIndex_ok h, pure, Except.pure]

theorem bankInsertOp_error {s : State} {k : Bits} (h : k.length ≠ s.cfg.bankKeyW) (b : Bit) :
    bankInsertOp s k b = .error (.lengthMismatch k.length s.cfg.bankKeyW) := by
  simp [bankInsertOp, checkLength_error h]

/-- R107: in a constructed engine with a hash, HASH_XOR raises nothing. -/
theorem hashOp_ok {cfg : Config} (hm : cfg.hashMode = 0b00#2) (hk : 1 ≤ cfg.hashW) (a : Bits) :
    hashOp cfg a = .ok (hashFold cfg.hashW a) := by
  have : cfg.hashW ≠ 0 := by omega
  simp [hashOp, hm, this]

theorem hashOp_mode_error {cfg : Config} (hm : cfg.hashMode ≠ 0b00#2) (a : Bits) :
    hashOp cfg a = .error (.unsupportedHashMode cfg.hashMode) := if_pos hm

theorem hashOp_width_error {cfg : Config} (hm : cfg.hashMode = 0b00#2) (hk : cfg.hashW = 0) (a : Bits) :
    hashOp cfg a = .error (.lengthMismatch 0 0) := by simp [hashOp, hm, hk]

@[simp] theorem hashLoop_length (k i : Nat) (out s : Bits) : (hashLoop k i out s).length = out.length := by
  induction s generalizing i out with
  | nil => rfl
  | cons b s ih => simp [hashLoop, ih]

/-- R108: the hash has K bits. -/
@[simp] theorem hashFold_length (k : Nat) (a : Bits) : (hashFold k a).length = k := by simp [hashFold]

/-! ### Endings -/

@[simp] theorem finishPredict_ok (s : State) (o : BranchResult) :
    finishPredict s (.ok o) = .next (s.answer (outcomeBit o)) := rfl
@[simp] theorem finishPredict_error (s : State) (e : EngineError) : finishPredict s (.error e) = .next (s.raiseError e) := rfl
@[simp] theorem finishUpdate_ok (s s' : State) : finishUpdate s (.ok s') = .next (s'.answer .zero) := rfl
@[simp] theorem finishUpdate_error (s : State) (e : EngineError) : finishUpdate s (.error e) = .next (s.raiseError e) := rfl
@[simp] theorem finishRead_ok (s : State) (v : Bits) : finishRead s (.ok v) = .next (s.giveUop (.bits v)) := rfl
@[simp] theorem finishRead_error (s : State) (e : EngineError) : finishRead s (.error e) = .next (s.giveUop (.raised e)) := rfl
@[simp] theorem finishWrite_ok (s s' : State) : finishWrite s (.ok s') = .next (s'.giveUop .done) := rfl
@[simp] theorem finishWrite_error (s : State) (e : EngineError) :
    finishWrite s (.error e) = .next (s.giveUop (.raised e)) := rfl

/-! The response words that occur (V9). -/

@[simp] theorem respond_completed : respond .zero noError = 0b000#3 := by decide
@[simp] theorem respond_predicted_taken : respond .one noError = 0b001#3 := by decide
@[simp] theorem respond_lengthMismatch (g w : Nat) : respond .zero (EngineError.lengthMismatch g w).code = 0b010#3 :=
  show respond .zero 0b01#2 = 0b010#3 by decide
@[simp] theorem respond_invalidIndex (n : Nat) : respond .zero (EngineError.invalidIndex n).code = 0b100#3 :=
  show respond .zero 0b10#2 = 0b100#3 by decide
@[simp] theorem respond_unsupportedHashMode (m : BitVec 2) :
    respond .zero (EngineError.unsupportedHashMode m).code = 0b110#3 :=
  show respond .zero 0b11#2 = 0b110#3 by decide

/-- R65: the response of a prediction, bit by bit. -/
theorem respond_class (c : Bits) :
    respond (outcomeBit (valueClass c)) noError = 0b00#2 ++ BitVec.ofBool (decide (2 ^ (c.length - 1) ≤ toNumber c)) := by
  by_cases h : 2 ^ (c.length - 1) ≤ toNumber c
  · rw [show valueClass c = .taken from if_pos h, decide_eq_true h]; rfl
  · rw [show valueClass c = .notTaken from if_neg h, decide_eq_false h]; rfl

/-! ### Reading and writing one slot, one register -/

/-- What a shaped state says of its table and its histories, whatever the variant. -/
theorem shaped_table {s : State} (h : s.Shaped) : Memory.wf s.cfg.ctrW (2 ^ s.cfg.tableKeyW) s.table = true := by
  unfold State.Shaped at h
  unfold Config.tableKeyW State.table
  cases hv : s.cfg.variant <;> simp only [hv] at h ⊢
  · exact h.2.2.1
  · exact h.2.2.2
  · exact h.2.2.1

theorem shaped_readSlot_length {s : State} (h : s.Shaped) (j : Nat) : (s.readSlot j).length = s.cfg.ctrW :=
  read_length (shaped_table h) j

theorem shaped_readHist_length {s : State} (h : s.Shaped) (r : Nat) : (s.readHist r).length = s.cfg.histW := by
  unfold State.Shaped at h
  unfold State.readHist
  cases hv : s.cfg.variant <;> simp only [hv] at h ⊢
  · exact h.1
  · exact h.1
  · exact read_length h.2.1 r

theorem readSlot_writeSlot_same {s : State} (h : s.Shaped) (j : Nat) (v : Bits) : (s.writeSlot j v).readSlot j = v := by
  simp only [State.readSlot, State.writeSlot, table_setTable, setTable_cfg]
  exact read_write_same (shaped_table h) v

theorem readSlot_writeSlot_other (s : State) {j i : Nat} (v : Bits) (hij : i ≠ j) :
    (s.writeSlot j v).readSlot i = s.readSlot i := by
  simp only [State.readSlot, State.writeSlot, table_setTable, setTable_cfg]
  exact read_write_other _ _ v hij

theorem readHist_writeHist_same {s : State} (h : s.Shaped) (r : Nat) (v : Bits) : (s.writeHist r v).readHist r = v := by
  unfold State.Shaped at h
  unfold State.readHist State.writeHist
  cases hv : s.cfg.variant <;> simp only [hv] at h ⊢
  exact read_write_same h.2.1 v

/-- R94: shifting or loading one register leaves the others alone. -/
theorem readHist_writeHist_other (s : State) {r i : Nat} (v : Bits) (hr : r < histCount s.cfg) (hi : i < histCount s.cfg)
    (hir : i ≠ r) : (s.writeHist r v).readHist i = s.readHist i := by
  unfold histCount Config.bankKeyW at hr hi
  unfold State.readHist State.writeHist
  cases hv : s.cfg.variant <;> simp only [hv, pow_zero] at hr hi ⊢
  · omega
  · omega
  · exact read_write_other _ _ v hir

/-- A write of one slot keeps the shape. -/
theorem shaped_writeSlot {s : State} (h : s.Shaped) {j : Nat} {v : Bits} (hj : j < 2 ^ s.cfg.tableKeyW)
    (hv : v.length = s.cfg.ctrW) : (s.writeSlot j v).Shaped := by
  have ht := shaped_table h
  unfold State.Shaped at *
  unfold State.writeSlot State.setTable
  unfold Config.tableKeyW at hj ht
  unfold State.table at ht ⊢
  cases hx : s.cfg.variant <;> simp only [hx] at h hj ht ⊢
  · exact ⟨h.1, h.2.1, wf_write ht hj hv, h.2.2.2⟩
  · exact ⟨h.1, h.2.1, h.2.2.1, wf_write ht hj hv⟩
  · exact ⟨h.1, h.2.1, wf_write ht hj hv, h.2.2.2⟩

/-- A write of one register keeps the shape. -/
theorem shaped_writeHist {s : State} (h : s.Shaped) {r : Nat} {v : Bits} (hr : r < histCount s.cfg)
    (hv : v.length = s.cfg.histW) : (s.writeHist r v).Shaped := by
  unfold State.Shaped at *
  unfold histCount Config.bankKeyW at hr
  unfold State.writeHist
  cases hx : s.cfg.variant <;> simp only [hx] at h hr ⊢
  · exact ⟨hv, h.2⟩
  · exact ⟨hv, h.2⟩
  · exact ⟨h.1, wf_write h.2.1 hr hv, h.2.2⟩

/-! ### The key of an address -/

/-- R120: in a shaped state every key has exactly the width its table expects. -/
theorem slotKey_length {s : State} (h : s.Shaped) (a : Bits) : (s.slotKey a).length = s.cfg.tableKeyW := by
  unfold State.Shaped at h
  unfold State.slotKey Config.tableKeyW
  cases hx : s.cfg.variant <;> simp only [hx] at h ⊢
  · exact h.1
  · simp [h.1]
  · exact read_length h.2.1 _

theorem setNumber_lt (s : State) (a : Bits) : s.setNumber a < histCount s.cfg := by
  unfold State.setNumber histCount Config.bankKeyW
  cases hx : s.cfg.variant
  · simp
  · simp
  · exact toNumber_lt_of_length (hashFold_length _ a)

/-- What PREDICT answers in a constructed engine, whatever the variant (R121, R124, R126). -/
theorem execPredict_eq {s : State} (hi : s.Inv) {a : Bits} (ha : a.length = s.cfg.addrW) :
    execPredict a s = .next (s.answer (outcomeBit (valueClass (s.readSlot (toNumber (s.slotKey a)))))) := by
  obtain ⟨hl, hs, -⟩ := hi
  have hk := slotKey_length hs a
  unfold State.slotKey at hk ⊢
  unfold execPredict
  cases hx : s.cfg.variant <;> simp only [hx] at hk ⊢
  · simp [predictGAg, gagKey, checkLength_ok ha, cacheReadOp_ok hk, pure, Except.pure]
  · obtain ⟨⟨h1, -⟩, h2⟩ := hl.2.2.2 (by simp [hx])
    simp only [concatBits_eq] at hk
    simp [predictGAs, gasKey, checkLength_ok ha, hashOp_ok h2 h1, cacheReadOp_ok hk, pure, Except.pure]
  · obtain ⟨⟨h1, -⟩, h2⟩ := hl.2.2.2 (by simp [hx])
    have hb : (hashFold s.cfg.hashW a).length = s.cfg.bankKeyW := by simp [Config.bankKeyW, hx]
    simp [predictSAg, sagSet, checkLength_ok ha, hashOp_ok h2 h1, bankReadOp_ok hb, readHist_sag hx, cacheReadOp_ok hk, pure,
      Except.pure]

/-- What UPDATE does in a constructed engine, whatever the variant (R122, R125, R127). -/
theorem execUpdate_eq {s : State} (hi : s.Inv) {a : Bits} (ha : a.length = s.cfg.addrW) (o : BranchResult) :
    execUpdate a o s =
      .next (((s.writeSlot (toNumber (s.slotKey a)) (stepCounter (s.readSlot (toNumber (s.slotKey a))) o)).writeHist
        (s.setNumber a) (shin (s.readHist (s.setNumber a)) (outcomeBit o))).answer .zero) := by
  obtain ⟨hl, hs, -⟩ := hi
  have hk := slotKey_length hs a
  have hc : (stepCounter (s.readSlot (toNumber (s.slotKey a))) o).length = s.cfg.ctrW := by
    simp [shaped_readSlot_length hs]
  unfold State.slotKey at hk hc ⊢
  unfold State.setNumber execUpdate
  cases hx : s.cfg.variant <;> simp only [hx] at hk hc ⊢
  · simp [updateGAg, gagKey, checkLength_ok ha, cacheReadOp_ok hk, cacheWriteOp_ok hk hc, writeHist_gag, readHist_gag hx, hx,
      pure, Except.pure]
  · obtain ⟨⟨h1, -⟩, h2⟩ := hl.2.2.2 (by simp [hx])
    simp only [concatBits_eq] at hk hc
    simp [updateGAs, gasKey, checkLength_ok ha, hashOp_ok h2 h1, cacheReadOp_ok hk, cacheWriteOp_ok hk hc, writeHist_gas,
      readHist_gas hx, hx, pure, Except.pure]
  · obtain ⟨⟨h1, -⟩, h2⟩ := hl.2.2.2 (by simp [hx])
    have hb : (hashFold s.cfg.hashW a).length = s.cfg.bankKeyW := by simp [Config.bankKeyW, hx]
    have hb' (j : Nat) (v : Bits) : (hashFold s.cfg.hashW a).length = (s.writeSlot j v).cfg.bankKeyW := by simp [hb]
    simp [updateSAg, sagSet, checkLength_ok ha, hashOp_ok h2 h1, bankReadOp_ok hb, readHist_sag hx, cacheReadOp_ok hk,
      cacheWriteOp_ok hk hc, bankInsertOp_ok (hb' _ _)]

/-- R120: an address of the wrong length is the error of every PREDICT, in every variant and state. -/
theorem execPredict_badLength {s : State} {a : Bits} (ha : a.length ≠ s.cfg.addrW) :
    execPredict a s = .next (s.raiseError (.lengthMismatch a.length s.cfg.addrW)) := by
  unfold execPredict
  cases s.cfg.variant <;> simp [predictGAg, predictGAs, predictSAg, checkLength_error ha]

/-- R120: an address of the wrong length is the error of every UPDATE, in every variant and state. -/
theorem execUpdate_badLength {s : State} {a : Bits} (ha : a.length ≠ s.cfg.addrW) (o : BranchResult) :
    execUpdate a o s = .next (s.raiseError (.lengthMismatch a.length s.cfg.addrW)) := by
  unfold execUpdate
  cases s.cfg.variant <;> simp [updateGAg, updateGAs, updateSAg, checkLength_error ha]

/-- The hash raises no InvalidIndex. -/
theorem hashOp_cases (cfg : Config) (a : Bits) :
    hashOp cfg a = .ok (hashFold cfg.hashW a) ∨ ∃ e, hashOp cfg a = .error e ∧ ∀ n, e ≠ .invalidIndex n := by
  unfold hashOp
  split
  · exact .inr ⟨_, rfl, by simp⟩
  · split
    · exact .inr ⟨_, rfl, by simp⟩
    · exact .inl rfl

/-- A step in an UPDATE or PREDICT that can fail: it fails with an error that is not InvalidIndex, or it gives a value with
property `P`. -/
def OkOr {α : Type} (P : α → Prop) (x : Except EngineError α) : Prop :=
  (∃ v, x = .ok v ∧ P v) ∨ ∃ e, x = .error e ∧ ∀ n, e ≠ .invalidIndex n

theorem OkOr.bind {α β : Type} {P : α → Prop} {Q : β → Prop} {x : Except EngineError α} {f : α → Except EngineError β}
    (hx : OkOr P x) (hf : ∀ v, P v → OkOr Q (f v)) : OkOr Q (x >>= f) := by
  rcases hx with ⟨v, rfl, hv⟩ | ⟨e, rfl, he⟩
  · exact hf v hv
  · exact .inr ⟨e, rfl, he⟩

theorem OkOr.pure {α : Type} {P : α → Prop} {v : α} (h : P v) : OkOr P (pure v : Except EngineError α) := .inl ⟨v, rfl, h⟩

theorem checkLength_okOr (w : Nat) (s : Bits) : OkOr (fun _ => True) (checkLength w s) := by
  by_cases h : s.length = w
  · exact .inl ⟨(), checkLength_ok h, trivial⟩
  · exact .inr ⟨_, checkLength_error h, by simp⟩

theorem hashOp_okOr (cfg : Config) (a : Bits) : OkOr (fun _ => True) (hashOp cfg a) := by
  rcases hashOp_cases cfg a with h | h
  · exact .inl ⟨_, h, trivial⟩
  · exact .inr h

theorem cacheReadOp_okOr (s : State) (k : Bits) : OkOr (fun _ => True) (cacheReadOp s k) := by
  by_cases h : k.length = s.cfg.tableKeyW
  · exact .inl ⟨_, cacheReadOp_ok h, trivial⟩
  · exact .inr ⟨_, cacheReadOp_error h, by simp⟩

theorem bankReadOp_okOr (s : State) (k : Bits) : OkOr (fun _ => True) (bankReadOp s k) := by
  by_cases h : k.length = s.cfg.bankKeyW
  · exact .inl ⟨_, bankReadOp_ok h, trivial⟩
  · exact .inr ⟨_, bankReadOp_error h, by simp⟩

/-- What a writing operation leaves of the rest: CFG, the ports and the micro-operation view. -/
def KeepsRest (s s' : State) : Prop := s.SamePorts s' ∧ s'.uop = s.uop

theorem cacheWriteOp_okOr (s : State) (k v : Bits) : OkOr (KeepsRest s) (cacheWriteOp s k v) := by
  by_cases h : k.length = s.cfg.tableKeyW
  · by_cases hv : v.length = s.cfg.ctrW
    · exact .inl ⟨_, cacheWriteOp_ok h hv, by simp [KeepsRest, State.SamePorts]⟩
    · exact .inr ⟨_, cacheWriteOp_block_error h hv, by simp⟩
  · exact .inr ⟨_, cacheWriteOp_key_error h, by simp⟩

theorem bankInsertOp_okOr (s : State) (k : Bits) (b : Bit) : OkOr (KeepsRest s) (bankInsertOp s k b) := by
  by_cases h : k.length = s.cfg.bankKeyW
  · exact .inl ⟨_, bankInsertOp_ok h b, by simp [KeepsRest, State.SamePorts]⟩
  · exact .inr ⟨_, bankInsertOp_error h b, by simp⟩

/-- PREDICT ends in one of two ways, in every state: it answers an outcome, or it takes an error that is not
InvalidIndex. -/
theorem execPredict_cases (a : Bits) (s : State) :
    (∃ o, execPredict a s = .next (s.answer (outcomeBit o))) ∨
      ∃ e, execPredict a s = .next (s.raiseError e) ∧ ∀ n, e ≠ .invalidIndex n := by
  have key (x : Except EngineError BranchResult) (hx : OkOr (fun _ => True) x) :
      (∃ o, finishPredict s x = .next (s.answer (outcomeBit o))) ∨
        ∃ e, finishPredict s x = .next (s.raiseError e) ∧ ∀ n, e ≠ .invalidIndex n := by
    rcases hx with ⟨o, rfl, -⟩ | ⟨e, rfl, he⟩
    · exact .inl ⟨o, rfl⟩
    · exact .inr ⟨e, rfl, he⟩
  unfold execPredict
  cases s.cfg.variant
  · exact key _ ((checkLength_okOr _ _).bind fun _ _ => (cacheReadOp_okOr _ _).bind fun _ _ => .pure trivial)
  · exact key _ ((checkLength_okOr _ _).bind fun _ _ =>
      OkOr.bind (P := fun _ => True) ((hashOp_okOr _ _).bind fun _ _ => .pure trivial) fun _ _ =>
        (cacheReadOp_okOr _ _).bind fun _ _ => .pure trivial)
  · exact key _ ((checkLength_okOr _ _).bind fun _ _ => (hashOp_okOr _ _).bind fun _ _ =>
      (bankReadOp_okOr _ _).bind fun _ _ => (cacheReadOp_okOr _ _).bind fun _ _ => .pure trivial)

/-- UPDATE ends in one of two ways, in every state: it has written histories and tables only and answers, or it takes an
error that is not InvalidIndex in the state before. -/
theorem execUpdate_cases (a : Bits) (o : BranchResult) (s : State) :
    (∃ s', execUpdate a o s = .next (State.answer s' .zero) ∧ KeepsRest s s') ∨
      ∃ e, execUpdate a o s = .next (s.raiseError e) ∧ ∀ n, e ≠ .invalidIndex n := by
  have key (x : Except EngineError State) (hx : OkOr (KeepsRest s) x) :
      (∃ s', finishUpdate s x = .next (State.answer s' .zero) ∧ KeepsRest s s') ∨
        ∃ e, finishUpdate s x = .next (s.raiseError e) ∧ ∀ n, e ≠ .invalidIndex n := by
    rcases hx with ⟨s', rfl, h⟩ | ⟨e, rfl, he⟩
    · exact .inl ⟨s', rfl, h⟩
    · exact .inr ⟨e, rfl, he⟩
  have tail (k c : Bits) : OkOr (KeepsRest s) (do
      let s' ← cacheWriteOp s k (stepCounter c o)
      return { s' with bhr := shin s.bhr (outcomeBit o) }) :=
    (cacheWriteOp_okOr _ _ _).bind fun s' h => .pure h
  unfold execUpdate
  cases s.cfg.variant
  · exact key _ ((checkLength_okOr _ _).bind fun _ _ => (cacheReadOp_okOr _ _).bind fun _ _ => tail _ _)
  · exact key _ ((checkLength_okOr _ _).bind fun _ _ =>
      OkOr.bind (P := fun _ => True) ((hashOp_okOr _ _).bind fun _ _ => .pure trivial) fun _ _ =>
        (cacheReadOp_okOr _ _).bind fun _ _ => tail _ _)
  · refine key _ ((checkLength_okOr _ _).bind fun _ _ => (hashOp_okOr _ _).bind fun _ _ =>
      (bankReadOp_okOr _ _).bind fun _ _ => (cacheReadOp_okOr _ _).bind fun _ _ =>
        (cacheWriteOp_okOr _ _ _).bind fun s' h => ?_)
    rcases bankInsertOp_okOr s' _ (outcomeBit o) with ⟨v, hv, h'⟩ | he
    · refine .inl ⟨v, hv, ?_⟩
      obtain ⟨⟨h1, h2, h3, h4⟩, h5⟩ := h
      obtain ⟨⟨k1, k2, k3, k4⟩, k5⟩ := h'
      exact ⟨⟨k1.trans h1, k2.trans h2, k3.trans h3, k4.trans h4⟩, k5.trans h5⟩
    · exact .inr he

end Sys2Proof.Machine
end

