-- ==== Sys2Proof/Laws/Exec.lean ====
section
/-! SUPPORT. Laws of exec: everything a command and everything a micro-operation can do, said once. -/

namespace Sys2Proof.Machine

/-- What a micro-operation can do: give a result that is no InvalidIndex, or write one slot with a block of S bits, or write
one register with a value of B bits or of the width it holds. -/
theorem exec_micro_cases {i : Instr} {s t : State} (hi : i.isCommand = false) (h : exec i s = .next t) :
    (∃ r, t = s.giveUop r ∧ ∀ n, r ≠ .raised (.invalidIndex n)) ∨
    (∃ j v, j < 2 ^ s.cfg.tableKeyW ∧ v.length = s.cfg.ctrW ∧ t = (s.writeSlot j v).giveUop .done) ∨
    (∃ r v, r < histCount s.cfg ∧ (v.length = s.cfg.histW ∨ v.length = (s.readHist r).length) ∧
      t = (s.writeHist r v).giveUop .done) := by
  have read (x : Except EngineError Bits) (hx : OkOr (fun _ => True) x) (hr : finishRead s x = .next t) :
      ∃ r, t = s.giveUop r ∧ ∀ n, r ≠ .raised (.invalidIndex n) := by
    rcases hx with ⟨v, rfl, -⟩ | ⟨e, rfl, he⟩ <;> cases hr
    · exact ⟨_, rfl, by simp⟩
    · exact ⟨_, rfl, by simpa using he⟩
  have write (k v : Bits) (hw : finishWrite s (cacheWriteOp s k v) = .next t) :
      (∃ r, t = s.giveUop r ∧ ∀ n, r ≠ .raised (.invalidIndex n)) ∨
      (∃ j v, j < 2 ^ s.cfg.tableKeyW ∧ v.length = s.cfg.ctrW ∧ t = (s.writeSlot j v).giveUop .done) := by
    by_cases hk : k.length = s.cfg.tableKeyW
    · by_cases hv : v.length = s.cfg.ctrW
      · rw [cacheWriteOp_ok hk hv] at hw; cases hw
        exact .inr ⟨_, v, toNumber_lt_of_length hk, hv, rfl⟩
      · rw [cacheWriteOp_block_error hk hv] at hw; cases hw
        exact .inl ⟨_, rfl, by simp⟩
    · rw [cacheWriteOp_key_error hk] at hw; cases hw
      exact .inl ⟨_, rfl, by simp⟩
  cases i <;> simp only [Instr.isCommand, Bool.true_eq_false] at hi <;> simp only [exec] at h
  case bitXor => unfold execBitXor at h; split at h <;> cases h; exact .inl ⟨_, rfl, by simp⟩
  case toNumber => cases h; exact .inl ⟨_, rfl, by simp⟩
  case srRead => unfold execSrRead at h; split at h <;> cases h; exact .inl ⟨_, rfl, by simp⟩
  case srShift reg b =>
    unfold execSrShift at h
    split at h <;> cases h
    next hr => exact .inr (.inr ⟨_, _, hr, .inr (shin_length _ _), rfl⟩)
  case srSet reg v =>
    unfold execSrSet srSetOp at h
    split at h
    · next hr =>
      by_cases hl : v.length = s.cfg.histW
      · rw [checkLength_ok hl] at h; cases h
        exact .inr (.inr ⟨_, v, hr, .inl hl, rfl⟩)
      · rw [checkLength_error hl] at h; cases h
        exact .inl ⟨_, rfl, by simp⟩
    · cases h
  case rbRead k => exact .inl (read _ (bankReadOp_okOr s k) h)
  case rbInsert k b =>
    unfold execRbInsert at h
    by_cases hk : k.length = s.cfg.bankKeyW
    · rw [bankInsertOp_ok hk] at h; cases h
      exact .inr (.inr ⟨_, _, toNumber_lt_of_length hk, .inr (shin_length _ _), rfl⟩)
    · rw [bankInsertOp_error hk] at h; cases h
      exact .inl ⟨_, rfl, by simp⟩
  case ctrInc => cases h; exact .inl ⟨_, rfl, by simp⟩
  case ctrDec => cases h; exact .inl ⟨_, rfl, by simp⟩
  case ctrPred => unfold execCtrPred at h; split at h <;> cases h; exact .inl ⟨_, rfl, by simp⟩
  case cacheRead k => exact .inl (read _ (cacheReadOp_okOr s k) h)
  case cacheWrite k v => rcases write k v h with h | h; exacts [.inl h, .inr (.inl h)]
  case cacheUpdate k v => rcases write k v h with h | h; exacts [.inl h, .inr (.inl h)]
  case hashXor a => exact .inl (read _ (hashOp_okOr s.cfg a) h)
  case concat => cases h; exact .inl ⟨_, rfl, by simp⟩
  case bitCmp => cases h; exact .inl ⟨_, rfl, by simp⟩

/-- What a command can do: write histories and tables only and answer without an error, or take an error that is not
InvalidIndex in the state before. -/
theorem exec_command_cases {i : Instr} {s t : State} (hi : i.isCommand = true) (h : exec i s = .next t) :
    (∃ s' p m, t = { State.answer s' p with mon := m } ∧ KeepsRest s s') ∨
      ∃ e, t = s.raiseError e ∧ ∀ n, e ≠ .invalidIndex n := by
  cases i <;> simp only [Instr.isCommand, Bool.false_eq_true] at hi <;> simp only [exec] at h
  case predict a =>
    rcases execPredict_cases a s with ⟨o, e⟩ | ⟨e, he, hn⟩
    · rw [e] at h; cases h
      exact .inl ⟨s, outcomeBit o, none, rfl, by simp [KeepsRest, State.SamePorts]⟩
    · rw [he] at h; cases h
      exact .inr ⟨e, rfl, hn⟩
  case update a o =>
    rcases execUpdate_cases a o s with ⟨s', e, hk⟩ | ⟨e, he, hn⟩
    · rw [e] at h; cases h
      exact .inl ⟨s', .zero, none, rfl, hk⟩
    · rw [he] at h; cases h
      exact .inr ⟨e, rfl, hn⟩
  case monitor => cases h; exact .inl ⟨s, .zero, some s.snapshot, rfl, by simp [KeepsRest, State.SamePorts]⟩
  case reset => cases h; exact .inl ⟨s.clear, .zero, none, rfl, by simp [KeepsRest, State.SamePorts]⟩

end Sys2Proof.Machine
end

