-- ==== Sys2Proof/Laws/PerInstr.lean ====
section
/-! SUPPORT. Laws made per operation: RoundTrip, that decoding the encoder's request gives the operation back
(spec/30_encoding.md R61-R64, R69). -/

namespace Sys2Proof.Laws.RoundTrip

/-- Decoding what the encoder writes for `i` gives `i`, whatever the number of address bits. -/
def Statement (i : Instr) : Prop := ∀ n : Nat, decode (encode n i) = .ok i

theorem predict (addr : Bits) : Statement (.predict addr) := fun _ => rfl
theorem update (addr : Bits) (actual : BranchResult) : Statement (.update addr actual) := fun _ => by cases actual <;> rfl
theorem monitor : Statement .monitor := fun _ => rfl
theorem reset : Statement .reset := fun _ => rfl
theorem bitXor (a b : Bits) : Statement (.bitXor a b) := fun _ => rfl
theorem toNumber (s : Bits) : Statement (.toNumber s) := fun _ => rfl
theorem srRead (reg : Bits) : Statement (.srRead reg) := fun _ => rfl
theorem srShift (reg : Bits) (b : Bit) : Statement (.srShift reg b) := fun _ => rfl
theorem srSet (reg values : Bits) : Statement (.srSet reg values) := fun _ => rfl
theorem rbRead (key : Bits) : Statement (.rbRead key) := fun _ => rfl
theorem rbInsert (key : Bits) (b : Bit) : Statement (.rbInsert key b) := fun _ => rfl
theorem ctrInc (c : Bits) : Statement (.ctrInc c) := fun _ => rfl
theorem ctrDec (c : Bits) : Statement (.ctrDec c) := fun _ => rfl
theorem ctrPred (c : Bits) : Statement (.ctrPred c) := fun _ => rfl
theorem cacheRead (key : Bits) : Statement (.cacheRead key) := fun _ => rfl
theorem cacheWrite (key block : Bits) : Statement (.cacheWrite key block) := fun _ => rfl
theorem cacheUpdate (key block : Bits) : Statement (.cacheUpdate key block) := fun _ => rfl
theorem hashXor (addr : Bits) : Statement (.hashXor addr) := fun _ => rfl
theorem concat (a b : Bits) : Statement (.concat a b) := fun _ => rfl
theorem bitCmp (a b : Bit) : Statement (.bitCmp a b) := fun _ => rfl

end Sys2Proof.Laws.RoundTrip
end

