-- ==== Sys2Proof/Tests/Slice0.lean ====
section
/-! SUPPORT. Tests/Slice0: the smoke test of WellFormed, decoding of words written out from spec/30_encoding.md, one-step tests
whose expected values are those of spec/95_test_vectors.md (V1 to V10, named at each test), and for every obligation with
hypotheses a witness that meets them. -/

namespace Sys2Proof.Tests

open Sys2Proof Sys2Proof.Machine Host

/-! ### Helpers -/

/-- The next state, if there is one. -/
def next? : Outcome State Fault Refusal → Option State
  | .next s => some s
  | .fault _ => none
  | .refused _ => none

/-- The fault, if there is one. -/
def fault? : Outcome State Fault Refusal → Option Fault
  | .next _ => none
  | .fault f => some f
  | .refused _ => none

/-- The refusal, if there is one. -/
def refusal? : Outcome State Fault Refusal → Option Refusal
  | .next _ => none
  | .fault _ => none
  | .refused r => some r

/-- A value in 2, 3 or 4 bits, written as a number; the tests of `zext` itself write the bits out. -/
def b2 (n : Nat) : Bits := zext 2 n
def b4 (n : Nat) : Bits := zext 4 n

/-- The configurations of spec/95_test_vectors.md: B = 2, S = 2, N = 4, K = 2, XOR. -/
def gagCfg : Config := { variant := .gag, histW := 2, ctrW := 2, addrW := 4, hashW := 2, hashMode := 0b00#2 }
def gasCfg : Config := { variant := .gas, histW := 2, ctrW := 2, addrW := 4, hashW := 2, hashMode := 0b00#2 }
def sagCfg : Config := { variant := .sag, histW := 2, ctrW := 2, addrW := 4, hashW := 2, hashMode := 0b00#2 }

/-- States with the storage of the variant and nothing issued. -/
def gag (bhr : Bits) (pht : Memory) : State := { State.init gagCfg with bhr := bhr, pht := pht }
def gas (bhr : Bits) (pspht : Memory) : State := { State.init gasCfg with bhr := bhr, pspht := pspht }
def sag (psbhr pht : Memory) : State := { State.init sagCfg with psbhr := psbhr, pht := pht }

/-- A GAg engine built with K = 0 or another hash mode, which its checks allow (V10, construction 2). -/
def gagOdd (hashW : Nat) (mode : BitVec 2) : State := State.init { gagCfg with hashW := hashW, hashMode := mode }

/-- What a command answered, with the engine's storage after it. -/
structure Shown where
  resp : Option (BitVec 3)
  bhr : Bits
  psbhr : Memory
  pht : Memory
  pspht : Memory
  deriving DecidableEq

/-- The command's answer and the storage, if there is a next state. -/
def after (o : Outcome State Fault Refusal) : Option Shown :=
  (next? o).map fun t => ⟨t.resp, t.bhr, t.psbhr, t.pht, t.pspht⟩

/-- What a micro-operation gave. -/
def gave (o : Outcome State Fault Refusal) : Option UopResult := (next? o).bind State.uop

/-! ### WellFormed: every check, with a term it refuses -/

theorem test_wf_predict : WellFormed gagCfg (.predict (b4 3)) = true ∧ WellFormed gagCfg (.predict (b2 3)) = false := by decide
theorem test_wf_update :
    WellFormed gagCfg (.update (b4 3) .taken) = true ∧ WellFormed gagCfg (.update [] .taken) = false := by decide
theorem test_wf_bitXor : WellFormed gagCfg (.bitXor (b2 1) (b2 2)) = true ∧ WellFormed gagCfg (.bitXor (b2 1) (b4 2)) = false := by
  decide
theorem test_wf_srRead : WellFormed sagCfg (.srRead (b2 3)) = true ∧ WellFormed sagCfg (.srRead []) = false := by decide
theorem test_wf_srShift : WellFormed gagCfg (.srShift [] .one) = true ∧ WellFormed gagCfg (.srShift (b2 0) .one) = false := by
  decide
theorem test_wf_srSet : WellFormed gagCfg (.srSet [] (b2 1)) = true ∧ WellFormed gagCfg (.srSet (b2 0) (b2 1)) = false ∧
    WellFormed gagCfg (.srSet [] (b4 1)) = false := by decide
theorem test_wf_rbRead : WellFormed sagCfg (.rbRead (b2 3)) = true ∧ WellFormed sagCfg (.rbRead (b4 3)) = false := by decide
theorem test_wf_rbInsert :
    WellFormed sagCfg (.rbInsert (b2 3) .one) = true ∧ WellFormed sagCfg (.rbInsert [] .one) = false := by decide
theorem test_wf_ctrInc : WellFormed gagCfg (.ctrInc (b2 3)) = true ∧ WellFormed gagCfg (.ctrInc [.one]) = false := by decide
theorem test_wf_ctrDec : WellFormed gagCfg (.ctrDec (b2 3)) = true ∧ WellFormed gagCfg (.ctrDec (b4 3)) = false := by decide
theorem test_wf_ctrPred : WellFormed gagCfg (.ctrPred (b2 3)) = true ∧ WellFormed gagCfg (.ctrPred []) = false := by decide
theorem test_wf_cacheRead : WellFormed gasCfg (.cacheRead (b4 3)) = true ∧ WellFormed gasCfg (.cacheRead (b2 3)) = false := by
  decide
theorem test_wf_cacheWrite : WellFormed gagCfg (.cacheWrite (b2 1) (b2 2)) = true ∧
    WellFormed gagCfg (.cacheWrite (b4 1) (b2 2)) = false ∧ WellFormed gagCfg (.cacheWrite (b2 1) (b4 2)) = false := by decide
theorem test_wf_cacheUpdate : WellFormed gagCfg (.cacheUpdate (b2 1) (b2 2)) = true ∧
    WellFormed gagCfg (.cacheUpdate (b4 1) (b2 2)) = false ∧ WellFormed gagCfg (.cacheUpdate (b2 1) [.one]) = false := by decide
theorem test_wf_hashXor : WellFormed gagCfg (.hashXor (b4 3)) = true ∧ WellFormed gagCfg (.hashXor (b2 3)) = false := by decide

/-! ### Decoding: each operation's word, written out from R61, R62 and R69 -/

theorem test_decode_predict : decode (.command 0b000#3 [.zero, .zero, .one, .one]) = .ok (.predict [.zero, .zero, .one, .one]) :=
  by decide
theorem test_decode_predict_T_ignored : decode (.command 0b001#3 [.one]) = .ok (.predict [.one]) := by decide
theorem test_decode_update_N : decode (.command 0b010#3 [.one]) = .ok (.update [.one] .notTaken) := by decide
theorem test_decode_update_T : decode (.command 0b011#3 [.one]) = .ok (.update [.one] .taken) := by decide
theorem test_decode_monitor : decode (.command 0b100#3 [.one]) = .ok .monitor ∧ decode (.command 0b101#3 []) = .ok .monitor :=
  by decide
theorem test_decode_reset : decode (.command 0b110#3 [.one]) = .ok .reset ∧ decode (.command 0b111#3 []) = .ok .reset := by decide
theorem test_decode_bitXor : decode (.micro 0b0000#4 [[.one], [.zero]]) = .ok (.bitXor [.one] [.zero]) := by decide
theorem test_decode_toNumber : decode (.micro 0b0001#4 [[.one, .zero]]) = .ok (.toNumber [.one, .zero]) := by decide
theorem test_decode_srRead : decode (.micro 0b0010#4 [[]]) = .ok (.srRead []) := by decide
theorem test_decode_srShift : decode (.micro 0b0011#4 [[.one], [.zero]]) = .ok (.srShift [.one] .zero) := by decide
theorem test_decode_srSet : decode (.micro 0b0100#4 [[], [.one, .zero]]) = .ok (.srSet [] [.one, .zero]) := by decide
theorem test_decode_rbRead : decode (.micro 0b0101#4 [[.one, .zero]]) = .ok (.rbRead [.one, .zero]) := by decide
theorem test_decode_rbInsert : decode (.micro 0b0110#4 [[.one], [.zero]]) = .ok (.rbInsert [.one] .zero) := by decide
theorem test_decode_ctrInc : decode (.micro 0b0111#4 [[.one]]) = .ok (.ctrInc [.one]) := by decide
theorem test_decode_ctrDec : decode (.micro 0b1000#4 [[.one]]) = .ok (.ctrDec [.one]) := by decide
theorem test_decode_ctrPred : decode (.micro 0b1001#4 [[.one]]) = .ok (.ctrPred [.one]) := by decide
theorem test_decode_cacheRead : decode (.micro 0b1010#4 [[.one]]) = .ok (.cacheRead [.one]) := by decide
theorem test_decode_cacheWrite : decode (.micro 0b1011#4 [[.one], [.zero]]) = .ok (.cacheWrite [.one] [.zero]) := by decide
theorem test_decode_cacheUpdate : decode (.micro 0b1100#4 [[.one], [.zero]]) = .ok (.cacheUpdate [.one] [.zero]) := by decide
theorem test_decode_hashXor : decode (.micro 0b1101#4 [[.one]]) = .ok (.hashXor [.one]) := by decide
theorem test_decode_concat : decode (.micro 0b1110#4 [[.one], [.zero]]) = .ok (.concat [.one] [.zero]) := by decide
theorem test_decode_bitCmp : decode (.micro 0b1111#4 [[.one], [.zero]]) = .ok (.bitCmp .one .zero) := by decide
theorem test_decode_refuses_shape : decode (.micro 0b1111#4 [[.one]]) = .error (.operandShape 0b1111#4) ∧
    decode (.micro 0b0011#4 [[], [.one, .one]]) = .error (.operandShape 0b0011#4) := by decide

/-- V9: the assembler's encodings at N = 4, the ignored bits ZERO. -/
theorem test_encode_v9 :
    encode 4 (.predict (b4 3)) = .command 0b000#3 [.zero, .zero, .one, .one] ∧
    encode 4 (.update (b4 1) .taken) = .command 0b011#3 [.zero, .zero, .zero, .one] ∧
    encode 4 (.update (b4 8) .notTaken) = .command 0b010#3 [.one, .zero, .zero, .zero] ∧
    encode 4 .monitor = .command 0b100#3 [.zero, .zero, .zero, .zero] ∧
    encode 4 .reset = .command 0b110#3 [.zero, .zero, .zero, .zero] := by decide

/-- V9, the texts: `update 0b1000, N`, `step 0x6, N`, and `predict 0x10`, which is refused. -/
theorem test_assemble_update :
    assembleText 4 ['u', 'p', 'd', 'a', 't', 'e', ' ', '0', 'b', '1', '0', '0', '0', ',', ' ', 'N'] =
      some [.command 0b010#3 [.one, .zero, .zero, .zero]] := by decide
theorem test_assemble_step :
    assembleText 4 ['s', 't', 'e', 'p', ' ', '0', 'x', '6', ',', ' ', 'N', ' ', ';', 'c'] =
      some [.command 0b000#3 [.zero, .one, .one, .zero], .command 0b010#3 [.zero, .one, .one, .zero]] := by decide
theorem test_assemble_refuses :
    assembleText 4 ['p', 'r', 'e', 'd', 'i', 'c', 't', ' ', '0', 'x', '1', '0'] = none := by decide

/-- The table's words (log 10): a CMD word, a UOP code above 7, a UOP code given at its own width, and no word. -/
theorem test_decodeTableWord :
    decodeTableWord 8 0b011 = some (.update [.zero, .zero, .zero, .zero] .taken) ∧
    decodeTableWord 8 0b1010 = some (.cacheRead [.zero, .zero]) ∧
    decodeTableWord 4 0b0011 = some (.srShift [] .zero) ∧ decodeTableWord 8 16 = none := by decide
theorem test_withFetchWord :
    after (step (State.reset.withFetchWord 8 0b011)) = some ⟨some 0b000#3, [.zero, .one], [], [(0, [.zero, .one])], []⟩ ∧
    gave (step (State.reset.withFetchWord 8 0b1111)) = some (.truth false) ∧
    ((next? (step (State.reset.withFetchWord 8 0b100))).map fun t => t.mon.isSome) = some true := by decide

/-! ### Micro-operations: V1 to V6, and R80-R85 -/

theorem test_bitXor : gave (exec (.bitXor [.one, .one, .zero] [.one, .zero, .zero]) State.reset) =
    some (.bits [.zero, .one, .zero]) := by decide
theorem test_bitXor_unequal : fault? (exec (.bitXor (b2 0) (b4 0)) State.reset) = some .bitXorUnequalWidths := by decide
theorem test_bitCmp : gave (exec (.bitCmp .zero .one) State.reset) = some (.truth true) ∧
    gave (exec (.bitCmp .one .one) State.reset) = some (.truth false) ∧
    gave (exec (.bitCmp .one .zero) State.reset) = some (.truth false) := by decide
theorem test_toNumber : gave (exec (.toNumber [.one, .zero, .one, .one]) State.reset) = some (.number 11) ∧
    gave (exec (.toNumber []) State.reset) = some (.number 0) := by decide
theorem test_concat : gave (exec (.concat [.zero, .one] [.one, .zero, .zero]) State.reset) =
    some (.bits [.zero, .one, .one, .zero, .zero]) := by decide
theorem test_zext : zext 4 11 = [.one, .zero, .one, .one] ∧ zext 2 7 = [.one, .one] := by decide
theorem test_srRead : gave (exec (.srRead []) (gag [.one, .zero] [])) = some (.bits [.one, .zero]) ∧
    gave (exec (.srRead (b2 2)) (sag [(2, b2 1)] [])) = some (.bits [.zero, .one]) := by decide
theorem test_srShift : ((next? (exec (.srShift [] .zero) (gag [.one, .one] []))).map State.bhr) = some [.one, .zero] := by decide
theorem test_srShift_absent : fault? (exec (.srShift [.one] .zero) (gag [.one, .one] [])) = some (.noSuchRegister 1) := by decide
theorem test_srSet : ((next? (exec (.srSet [] [.one, .zero]) (gag [.zero, .one] []))).map State.bhr) = some [.one, .zero] := by
  decide
theorem test_srSet_length : next? (exec (.srSet [] [.one]) (gag [.zero, .one] [])) =
    some { gag [.zero, .one] [] with uop := some (.raised (.lengthMismatch 1 2)) } := by decide
/-- V3: only register 2 changes; a key of 3 bits raises. -/
theorem test_rbInsert : ((next? (exec (.rbInsert (b2 2) .one) (sag [(1, b2 2)] []))).map State.psbhr) =
    some [(1, [.one, .zero]), (2, [.zero, .one])] := by decide
theorem test_rbRead : gave (exec (.rbRead (b2 1)) (sag [(1, b2 3)] [])) = some (.bits [.one, .one]) ∧
    gave (exec (.rbRead [.zero, .one, .one]) (sag [(1, b2 3)] [])) = some (.raised (.lengthMismatch 3 2)) := by decide
/-- V4: S = 2 and S = 3, the bounds and the class boundary. -/
theorem test_ctrInc : gave (exec (.ctrInc (b2 1)) State.reset) = some (.bits [.one, .zero]) ∧
    gave (exec (.ctrInc (b2 3)) State.reset) = some (.bits [.one, .one]) := by decide
theorem test_ctrDec : gave (exec (.ctrDec (zext 3 4)) State.reset) = some (.bits [.zero, .one, .one]) ∧
    gave (exec (.ctrDec (zext 3 0)) State.reset) = some (.bits [.zero, .zero, .zero]) := by decide
theorem test_ctrPred : gave (exec (.ctrPred (zext 3 3)) State.reset) = some (.outcome .notTaken) ∧
    gave (exec (.ctrPred (zext 3 4)) State.reset) = some (.outcome .taken) ∧
    gave (exec (.ctrPred [.one]) State.reset) = some (.outcome .taken) := by decide
theorem test_ctrPred_empty : fault? (exec (.ctrPred []) State.reset) = some .emptyCounter := by decide
/-- V5. -/
theorem test_cacheRead : gave (exec (.cacheRead (b2 1)) (gag (b2 0) [(1, b2 2)])) = some (.bits [.one, .zero]) ∧
    gave (exec (.cacheRead (b2 2)) (gag (b2 0) [(1, b2 2)])) = some (.bits [.zero, .zero]) := by decide
theorem test_cacheWrite : ((next? (exec (.cacheWrite (b2 1) (b2 2)) (gag (b2 0) []))).map State.pht) =
    some [(1, [.one, .zero])] := by decide
theorem test_cacheWrite_lengths : gave (exec (.cacheWrite [.one] (b2 0)) (gag (b2 0) [(1, b2 3)])) =
      some (.raised (.lengthMismatch 1 2)) ∧
    gave (exec (.cacheWrite (b2 0) (zext 3 4)) (gag (b2 0) [(1, b2 3)])) = some (.raised (.lengthMismatch 3 2)) := by decide
theorem test_cacheUpdate : ((next? (exec (.cacheUpdate (b2 1) (b2 3)) (gag (b2 0) [(1, b2 2)]))).map State.pht) =
    some [(1, [.one, .one])] ∧
    ((next? (exec (.cacheUpdate (b2 1) (b2 0)) (gag (b2 0) [(1, b2 2)]))).map State.pht) = some [] := by decide
/-- V6: partial chunks at the most significant end, three chunks, the identity and the parity. -/
theorem test_hashXor : hashFold 2 (zext 5 0x1F) = [.one, .zero] ∧ hashFold 2 (zext 5 0x02) = [.zero, .one] ∧
    hashFold 3 (zext 8 0xA5) = [.one, .one, .zero] ∧ hashFold 4 (zext 4 0x5) = [.zero, .one, .zero, .one] ∧
    hashFold 1 (zext 4 0xB) = [.one] := by decide
theorem test_hashXor_exec : gave (exec (.hashXor (b4 6)) State.reset) = some (.bits [.one, .one]) ∧
    gave (exec (.hashXor (b4 6)) (gagOdd 0 0b11#2)) = some (.raised (.unsupportedHashMode 0b11#2)) ∧
    gave (exec (.hashXor (b4 6)) (gagOdd 0 0b00#2)) = some (.raised (.lengthMismatch 0 0)) := by decide

/-! ### Commands: V7, V8, V10 -/

/-- V7 row 1. -/
theorem test_predict_gag : after (exec (.predict (b4 5)) (gag (b2 3) [(3, b2 2)])) = some ⟨some 0b001#3, b2 3, [], [(3, b2 2)], []⟩ :=
  by decide
/-- V7 row 8: 0x4 aliases 0x1. -/
theorem test_predict_gas : after (exec (.predict (b4 4)) (gas (b2 2) [(6, b2 3)])) = some ⟨some 0b001#3, b2 2, [], [], [(6, b2 3)]⟩ :=
  by decide
/-- V7 row 13. -/
theorem test_predict_sag : after (exec (.predict (b4 4)) (sag [(1, b2 3)] [(3, b2 1)])) =
    some ⟨some 0b000#3, [], [(1, b2 3)], [(3, b2 1)], []⟩ := by decide
/-- V7 row 4: saturated, and BHR still shifts. -/
theorem test_update_gag : after (exec (.update (b4 9) .taken) (gag (b2 2) [(2, b2 3)])) =
    some ⟨some 0b000#3, b2 1, [], [(2, b2 3)], []⟩ := by decide
/-- V7 row 11. -/
theorem test_update_gas : after (exec (.update (b4 3) .taken) (gas (b2 1) [(13, b2 1)])) =
    some ⟨some 0b000#3, b2 3, [], [], [(13, b2 2)]⟩ := by decide
/-- V7 row 16: 0x8 is in set 2. -/
theorem test_update_sag : after (exec (.update (b4 8) .notTaken) (sag [(1, b2 3), (2, b2 2)] [(2, b2 2)])) =
    some ⟨some 0b000#3, [], [(1, b2 3)], [(2, b2 1)], []⟩ := by decide
/-- V8 row 4. -/
theorem test_monitor : next? (exec .monitor (sag [(1, b2 2), (2, b2 1)] [(0, b2 1), (1, b2 1)])) =
    some { sag [(1, b2 2), (2, b2 1)] [(0, b2 1), (1, b2 1)] with
      resp := some 0b000#3
      mon := some { cfg := { variant := 0b10#2, histW := 2, ctrW := 2, addrW := 4, hashW := 2, hashMode := 0b00#2 },
                    history := [b2 0, b2 2, b2 1, b2 0], table := [b2 1, b2 1, b2 0, b2 0] } } := by decide
/-- V8 rows 2 and 5. -/
theorem test_reset : after (exec .reset (gag (b2 3) [(0, b2 1), (1, b2 1), (3, b2 3)])) = some ⟨some 0b000#3, b2 0, [], [], []⟩ ∧
    after (exec .reset (sag [(1, b2 2), (2, b2 1)] [(0, b2 1)])) = some ⟨some 0b000#3, [], [], [], []⟩ := by decide
/-- V10 rows 1, 2, 3. -/
theorem test_error_update : after (exec (.update [.one, .zero, .one] .taken) (gag (b2 1) [(0, b2 1)])) =
    some ⟨some 0b010#3, b2 1, [], [(0, b2 1)], []⟩ := by decide
theorem test_error_predict : after (exec (.predict (zext 5 0)) (sag [] [])) = some ⟨some 0b010#3, [], [], [], []⟩ ∧
    after (exec (.predict []) (gas (b2 1) [])) = some ⟨some 0b010#3, b2 1, [], [], []⟩ := by decide
/-- V10 row 5: a request for MONITOR with 7 address bits, through `step`. -/
theorem test_monitor_address_ignored :
    ((next? (step { gag (b2 1) [] with pending := [.command 0b101#3 (zext 7 3)] })).map fun t => (t.resp, t.pending)) =
      some (some 0b000#3, []) := by decide

/-- V10, the construction checks, rows 1 to 9. -/
theorem test_construct_engine : next? (construct ⟨0b00#2, 2, 2, 4, 2, 0b00#2⟩) = some State.reset ∧
    (next? (construct ⟨0b00#2, 2, 2, 4, 0, 0b11#2⟩)).isSome = true ∧
    (next? (construct ⟨0b10#2, 2, 2, 4, 4, 0b00#2⟩)).isSome = true := by decide
theorem test_construct_refused : refusal? (construct ⟨0b00#2, 2, 0, 4, 2, 0b00#2⟩) = some (.badConfiguration (.lengthMismatch 0 1)) ∧
    refusal? (construct ⟨0b01#2, 2, 2, 4, 5, 0b00#2⟩) = some (.badConfiguration (.lengthMismatch 5 4)) ∧
    refusal? (construct ⟨0b01#2, 2, 2, 4, 0, 0b01#2⟩) = some (.badConfiguration (.lengthMismatch 0 4)) ∧
    refusal? (construct ⟨0b10#2, 2, 2, 4, 2, 0b01#2⟩) = some (.badConfiguration (.unsupportedHashMode 0b01#2)) ∧
    refusal? (construct ⟨0b11#2, 2, 2, 4, 2, 0b00#2⟩) = some .notAnEngine ∧
    refusal? (construct ⟨0b01#2, 0, 2, 4, 5, 0b01#2⟩) = some (.badConfiguration (.lengthMismatch 0 1)) := by decide

/-! ### Witnesses: states and operands that meet the hypotheses of each obligation -/

theorem inv_gag {s : State} (hv : s.cfg.variant = .gag) (hl : s.cfg.Legal)
    (h : s.bhr.length = s.cfg.histW ∧ s.psbhr = [] ∧ Memory.wf s.cfg.ctrW (2 ^ s.cfg.histW) s.pht = true ∧ s.pspht = [])
    (hr : s.RespLegal) : s.Inv := ⟨hl, by unfold State.Shaped; rw [hv]; exact h, hr⟩

theorem inv_gas {s : State} (hv : s.cfg.variant = .gas) (hl : s.cfg.Legal)
    (h : s.bhr.length = s.cfg.histW ∧ s.psbhr = [] ∧ s.pht = [] ∧
      Memory.wf s.cfg.ctrW (2 ^ (s.cfg.hashW + s.cfg.histW)) s.pspht = true)
    (hr : s.RespLegal) : s.Inv := ⟨hl, by unfold State.Shaped; rw [hv]; exact h, hr⟩

theorem inv_sag {s : State} (hv : s.cfg.variant = .sag) (hl : s.cfg.Legal)
    (h : s.bhr = [] ∧ Memory.wf s.cfg.histW (2 ^ s.cfg.hashW) s.psbhr = true ∧
      Memory.wf s.cfg.ctrW (2 ^ s.cfg.histW) s.pht = true ∧ s.pspht = [])
    (hr : s.RespLegal) : s.Inv := ⟨hl, by unfold State.Shaped; rw [hv]; exact h, hr⟩

/-- A GAg, a GAs and an SAg engine in states that runs reach, the last slot of each table and the last register used. -/
def wGag : State := gag (b2 3) [(0, b2 1), (3, b2 3)]
def wGas : State := gas (b2 3) [(7, b2 2), (15, b2 3)]
def wSag : State := sag [(1, b2 3), (3, b2 2)] [(2, b2 1), (3, b2 3)]

theorem test_inv_wGag : wGag.Inv := inv_gag rfl (by decide) (by decide) (by decide)
theorem test_inv_wGas : wGas.Inv := inv_gas rfl (by decide) (by decide) (by decide)
theorem test_inv_wSag : wSag.Inv := inv_sag rfl (by decide) (by decide) (by decide)

/-- CommandWordsReencode, DecodeEncodeAgree, NoCommandIssuesMicroOp: words that decode, with a set ignored bit. -/
theorem witness_decodes : decode (.command 0b101#3 (b4 15)) = .ok .monitor ∧
    decode (.command 0b011#3 (b4 15)) = .ok (.update (b4 15) .taken) ∧
    decode (.micro 0b1011#4 [b2 1, b2 2]) = .ok (.cacheWrite (b2 1) (b2 2)) := by decide

/-- StepRunsDecoded, StepServesRequestsInOrder, ConfigurationIsReadOnly, EveryStepKeepsInv: a state with the invariant, two
requests pending, and the next state of its step; one for each variant. -/
theorem witness_step_gag : ({ wGag with pending := [.command 0b011#3 (b4 2), .command 0b110#3 []] } : State).Inv ∧
    decode (.command 0b011#3 (b4 2)) = .ok (.update (b4 2) .taken) ∧
    ((next? (step { wGag with pending := [.command 0b011#3 (b4 2), .command 0b110#3 []] })).map State.pending) =
      some [.command 0b110#3 []] := ⟨test_inv_wGag, by decide, by decide⟩
theorem witness_step_gas : ({ wGas with pending := [.command 0b010#3 (b4 2)] } : State).Inv ∧
    (next? (step { wGas with pending := [.command 0b010#3 (b4 2)] })).isSome = true := ⟨test_inv_wGas, by decide⟩
theorem witness_step_sag : ({ wSag with pending := [.micro 0b0110#4 [b2 3, [.one]]] } : State).Inv ∧
    (next? (step { wSag with pending := [.micro 0b0110#4 [b2 3, [.one]]] })).isSome = true := ⟨test_inv_wSag, by decide⟩

/-- StepWaitsOrRefuses: a state with nothing pending, and one with a request of the wrong shape. -/
theorem witness_step_waits : wGag.pending = [] ∧ decode (.micro 0b0000#4 []) = .error (.operandShape 0b0000#4) ∧
    refusal? (step { wGag with pending := [.micro 0b0000#4 []] }) = some (.operandShape 0b0000#4) := by decide

/-- CommandsAlwaysComplete: three commands pending. -/
theorem witness_commandsOnly : ({ wSag with
    pending := [.command 0b000#3 (b4 1), .command 0b011#3 [], .command 0b111#3 []] } : State).CommandsOnly := by decide

/-- LaterCommandsUnobserved: a command that is served, with another behind it. -/
theorem witness_laterCommands :
    (next? (Host.Core.run core 1 { wGag with pending := [.command 0b011#3 (b4 2)] })).isSome = true := by decide

/-- PredictGAg, UpdateGAg, PredictGAs, UpdateGAs, PredictSAg, UpdateSAg: both clauses, a wrong and the right length. -/
theorem witness_gag : wGag.cfg.variant = .gag ∧ (b2 1).length ≠ wGag.cfg.addrW ∧ wGag.Inv ∧ (b4 1).length = wGag.cfg.addrW :=
  ⟨by decide, by decide, test_inv_wGag, by decide⟩
theorem witness_gas : wGas.cfg.variant = .gas ∧ ([] : Bits).length ≠ wGas.cfg.addrW ∧ wGas.Inv ∧
    (b4 13).length = wGas.cfg.addrW := ⟨by decide, by decide, test_inv_wGas, by decide⟩
theorem witness_sag : wSag.cfg.variant = .sag ∧ (zext 5 1).length ≠ wSag.cfg.addrW ∧ wSag.Inv ∧
    (b4 12).length = wSag.cfg.addrW := ⟨by decide, by decide, test_inv_wSag, by decide⟩

/-- UpdateFrame, UpdateStepsThePredictedSlot, UpdateIsItsMicroOps: the states above; and the other slots and registers that the
inner clauses speak of, at the ends of their ranges. -/
theorem witness_frame : toNumber (wGag.slotKey (b4 5)) = 3 ∧ toNumber (wGas.slotKey (b4 1)) = 7 ∧
    toNumber (wSag.slotKey (b4 12)) = 2 ∧ wSag.setNumber (b4 12) = 3 ∧ (0 ≠ 3 ∧ 15 ≠ 7) ∧
    (0 < histCount wSag.cfg ∧ 0 ≠ wSag.setNumber (b4 12)) := by decide

/-- PredictIsPureAndIdempotent: a state from which MONITOR goes on. -/
theorem witness_predict_monitor :
    (next? (exec .monitor { wSag with resp := some 0b001#3, mon := none })).isSome = true := by decide

/-- PredictsBetweenWritesAgree: a PREDICT of another address and a MONITOR between the two. -/
theorem witness_between : ∀ r ∈ [Request.command 0b001#3 (b4 7), Request.command 0b100#3 []],
    (∃ b, decode r = .ok (.predict b)) ∨ decode r = .ok .monitor := by
  intro r h
  rcases List.mem_pair.mp h with rfl | rfl
  · exact .inl ⟨b4 7, by decide⟩
  · exact .inr (by decide)

/-- AliasingFollowsTheHash: two addresses of N bits with equal and with different hashes, in each variant. -/
theorem witness_aliasing : wGas.cfg.variant = .gas ∧ wSag.cfg.variant = .sag ∧ wGag.cfg.variant = .gag ∧
    (b4 1).length = 4 ∧ (b4 4).length = 4 ∧ (b4 2).length = 4 ∧ hashFold 2 (b4 1) = hashFold 2 (b4 4) ∧
    hashFold 2 (b4 1) ≠ hashFold 2 (b4 2) := by decide

/-- MonitorShowsAllState, ResetClearsAllState: the first and the last register and slot of the ranges. -/
theorem witness_monitor : wGag.cfg.variant ≠ .sag ∧ wSag.cfg.variant = .sag ∧ 3 < 2 ^ wSag.cfg.hashW ∧
    3 < 2 ^ wSag.cfg.tableKeyW ∧ 15 < 2 ^ wGas.cfg.tableKeyW := by decide

/-- ResetEqualsConstruction, RunsAfterResetMatchFreshRuns: states that differ from the initial one, one command after RESET. -/
theorem witness_reset : wGas.Inv ∧ wGas ≠ State.init wGas.cfg ∧ (∀ r ∈ [Request.command 0b000#3 (b4 1)], r.isCommand = true) ∧
    0 < 1 ∧ 1 ≤ [Request.command 0b000#3 (b4 1)].length := ⟨test_inv_wGas, by decide, by decide, by decide, by decide⟩

/-- ErrorsWriteNothing: a command that answers with an error, and one after it. -/
theorem witness_error : (Instr.update [] .taken).isCommand = true ∧
    exec (.update [] .taken) wSag = .next { wSag with resp := some 0b010#3, mon := none } ∧ respErr 0b010#3 ≠ 0b00#2 ∧
    Instr.monitor.isCommand = true := ⟨by decide, rfl, by decide, by decide⟩

/-- ResponsesAreNotRead: a command. -/
theorem witness_command : (Instr.predict (b4 1)).isCommand = true := by decide

/-- InvalidIndexUnreachable, MicroOpsAreInvisibleAtPorts: a command and a micro-operation that go on. -/
theorem witness_goes_on : ((next? (exec (.predict (b4 1)) wGag)).map State.resp) = some (some 0b001#3) ∧
    (Instr.rbRead (b2 1)).isCommand = false ∧ (next? (exec (.rbRead (b2 1)) wSag)).isSome = true := by decide

/-- OnlyTheAddressCheckFails: well-formed commands at an engine with the invariant. -/
theorem witness_wellFormed_commands : wSag.Inv ∧ WellFormed wSag.cfg (.predict (b4 1)) = true ∧
    WellFormed wSag.cfg (.update (b4 1) .taken) = true ∧ WellFormed wSag.cfg .reset = true :=
  ⟨test_inv_wSag, by decide, by decide, by decide⟩

/-- BitXorComputesDifference, UndefinedOperandsStop, CounterClassIsUpperHalf: widths at the bounds; the first register number
past the last. -/
theorem witness_operands : ([.one] : Bits).length = ([.zero] : Bits).length ∧ ([] : Bits).length ≠ ([.one] : Bits).length ∧
    histCount wSag.cfg ≤ toNumber (zext 3 4) ∧ histCount wGag.cfg ≤ toNumber [.one] ∧ 1 ≤ ([.one] : Bits).length := by decide

/-- SrReadResult, SrShiftResult, SrSetResult: the last register of a bank and the one register of GAg; the right and a wrong
number of values; another register. -/
theorem witness_registers : wSag.Inv ∧ toNumber (b2 3) < histCount wSag.cfg ∧ wGag.Inv ∧ toNumber [] < histCount wGag.cfg ∧
    (b2 2).length = wSag.cfg.histW ∧ (b4 2).length ≠ wSag.cfg.histW ∧ 0 < histCount wSag.cfg ∧ 0 ≠ toNumber (b2 3) :=
  ⟨test_inv_wSag, by decide, test_inv_wGag, by decide, by decide, by decide, by decide, by decide⟩

/-- BankResults, BankOfOneRegister: a key of K bits and one that is not, in SAg; an engine that is not SAg. -/
theorem witness_bank : wSag.Inv ∧ wSag.cfg.variant = .sag ∧ (b2 3).length = wSag.cfg.hashW ∧
    (b4 3).length ≠ wSag.cfg.hashW ∧ wGas.cfg.variant ≠ .sag :=
  ⟨test_inv_wSag, by decide, by decide, by decide, by decide⟩

/-- SaturatingCounterLaws: the number of steps that reaches the bound; two values in order with the first TAKEN; both bounds. -/
theorem witness_counters : 2 ^ (b2 0).length - 1 ≤ 3 ∧ (b2 2).length = (b2 3).length ∧ toNumber (b2 2) ≤ toNumber (b2 3) ∧
    valueClass (b2 2) = .taken ∧ 2 ≤ (b2 3).length ∧ toNumber (b2 3) = 2 ^ (b2 3).length - 1 ∧ toNumber (b2 0) = 0 := by decide

/-- ShiftRegisterKeepsLastBits: as many Bits as the register has, and more. -/
theorem witness_shift : (b2 1).length ≤ (b2 2).length ∧ (b2 1).length ≤ (b4 9).length := by decide

/-- CacheReadResult, CacheWriteOverwritesOneSlot: the last slot, a wrong key, a wrong block. -/
theorem witness_cache : wGas.Inv ∧ (b4 15).length = wGas.cfg.tableKeyW ∧ (b2 3).length ≠ wGas.cfg.tableKeyW ∧
    (b2 1).length = wGas.cfg.ctrW ∧ (b4 1).length ≠ wGas.cfg.ctrW ∧ 0 ≠ toNumber (b4 15) :=
  ⟨test_inv_wGas, by decide, by decide, by decide, by decide, by decide⟩

/-- CacheLaws, EqualTablesAreEqualData: a table in canonical form, its last slot, and one equal to it read slot by slot. -/
theorem witness_tables : Memory.wf 2 4 [(0, b2 1), (3, b2 3)] = true ∧ 3 < 4 ∧ (b2 0).length = 2 ∧
    Memory.wf 2 4 (Memory.write 2 [(3, b2 3)] 0 (b2 1)) = true ∧
    (∀ j, j < 4 → Memory.read 2 [(0, b2 1), (3, b2 3)] j = Memory.read 2 (Memory.write 2 [(3, b2 3)] 0 (b2 1)) j) := by decide

/-- HashXorFoldsAddress, HashLaws: XOR with K ≥ 1; another mode; XOR with K = 0; K = 1 and K = N. -/
theorem witness_hash : wGas.cfg.hashMode = 0b00#2 ∧ 1 ≤ wGas.cfg.hashW ∧ 1 < wGas.cfg.hashW ∧
    (gagOdd 0 0b11#2).cfg.hashMode ≠ 0b00#2 ∧ (gagOdd 0 0b00#2).cfg.hashMode = 0b00#2 ∧ (gagOdd 0 0b00#2).cfg.hashW = 0 ∧
    (b4 1).length = (b4 2).length ∧ 1 ≤ 4 ∧ ([.one] : Bits).length = 1 ∧ (b4 5).length = 4 := by decide

/-- OnlyUpdateAndResetWrite: a command after which the engine's state differs. -/
theorem witness_writes : (Instr.update (b4 1) .notTaken).isCommand = true ∧
    ((next? (exec (.update (b4 1) .notTaken) wGag)).map fun t => decide (t.bhr = wGag.bhr)) = some false := by decide

/-- InitialStatesSatisfyInv, InitIsZeroAndPredictsNotTaken: legal configurations of each variant, also at the least widths. -/
theorem witness_legal : gagCfg.Legal ∧ gasCfg.Legal ∧ sagCfg.Legal ∧ (b4 1).length = sagCfg.addrW ∧
    ({ variant := .sag, histW := 1, ctrW := 1, addrW := 1, hashW := 1, hashMode := 0b00#2 } : Config).Legal ∧
    ({ variant := .gag, histW := 1, ctrW := 1, addrW := 1, hashW := 0, hashMode := 0b11#2 } : Config).Legal ∧
    2 < histCount sagCfg := by decide

/-- ConstructionChecksInOrder: one record for each clause, at the bounds of K. -/
theorem witness_construct : configRecord sagCfg = ⟨0b10#2, 2, 2, 4, 2, 0b00#2⟩ ∧ sagCfg.Legal ∧ (0b01#2 : BitVec 2) ≠ 0b11#2 ∧
    (1 ≤ 2 ∧ (5 = 0 ∨ 4 < 5)) ∧ (1 ≤ 4 ∧ 4 ≤ 4 ∧ (0b01#2 : BitVec 2) ≠ 0b00#2) := by decide

/-- AssemblerMakesStep: the last literal that fits N = 4, and the first that does not. -/
theorem witness_assembler : 15 < 2 ^ 4 ∧ 2 ^ 4 ≤ 16 := by decide

end Sys2Proof.Tests
end

/-! PROOFS of the statements about the state of spec/10_state.md. First the facts they share: what a step does, which
operations are commands, and what the updates of State leave of the invariant, of the storage and of the answer. -/

namespace Sys2Proof.Machine

/-! ### The step and the commands -/

/-- R144: a step that goes on has waited, or it has executed the decoded oldest request on the state without it. -/
theorem step_cases {s t : State} (h : step s = .next t) :
    t = s ∨ ∃ r rest i, s.pending = r :: rest ∧ decode r = .ok i ∧ exec i { s with pending := rest } = .next t := by
  unfold step at h
  split at h
  · cases h
    exact .inl rfl
  · next r rest hp =>
    split at h
    · next i hd => exact .inr ⟨r, rest, i, hp, hd, h⟩
    · cases h

/-- R62: the commands are PREDICT, UPDATE, MONITOR and RESET. -/
theorem isCommand_iff (i : Instr) :
    i.isCommand = true ↔ (∃ a, i = .predict a) ∨ (∃ a o, i = .update a o) ∨ i = .monitor ∨ i = .reset := by
  cases i <;> simp [Instr.isCommand]

/-! ### What the updates of one slot and of one register leave, by variant -/

@[simp] theorem answer_readSlot (s : State) (p : Bit) (j : Nat) : (s.answer p).readSlot j = s.readSlot j := rfl
@[simp] theorem answer_readHist (s : State) (p : Bit) (r : Nat) : (s.answer p).readHist r = s.readHist r := rfl

theorem writeSlot_pspht {s : State} (h : s.cfg.variant ≠ .gas) (j : Nat) (v : Bits) :
    (s.writeSlot j v).pspht = s.pspht := by
  cases hx : s.cfg.variant <;> simp_all [State.writeSlot, State.setTable]

theorem writeSlot_pht {s : State} (h : s.cfg.variant = .gas) (j : Nat) (v : Bits) : (s.writeSlot j v).pht = s.pht := by
  simp [State.writeSlot, setTable_gas h]

/-- R20: GAg and GAs have the one register BHR, which every write of a history register writes. -/
theorem writeHist_of_ne_sag {s : State} (h : s.cfg.variant ≠ .sag) (r : Nat) (v : Bits) :
    s.writeHist r v = { s with bhr := v } := by
  cases hx : s.cfg.variant
  · exact writeHist_gag hx r v
  · exact writeHist_gas hx r v
  · exact absurd hx h

/-- R20: GAg and GAs have the one register BHR, which every read of a history register reads. -/
theorem readHist_of_ne_sag {s : State} (h : s.cfg.variant ≠ .sag) (r : Nat) : s.readHist r = s.bhr := by
  cases hx : s.cfg.variant
  · exact readHist_gag hx r
  · exact readHist_gas hx r
  · exact absurd hx h

theorem bankKeyW_of_ne_sag {c : Config} (h : c.variant ≠ .sag) : c.bankKeyW = 0 := by
  cases hx : c.variant <;> simp_all [Config.bankKeyW]

/-! ### What keeps the invariant -/

theorem respLegal_answer (s : State) (p : Bit) : (s.answer p).RespLegal := by cases p <;> simp

/-- R151: the three error codes give the three error responses of V9. -/
theorem respLegal_raiseError (s : State) (e : EngineError) : (s.raiseError e).RespLegal := by cases e <;> simp

/-- Answering makes the response a legal one, whatever it was before. -/
theorem inv_answer {s : State} (hl : s.cfg.Legal) (hs : s.Shaped) (p : Bit) : (s.answer p).Inv :=
  ⟨hl, hs, respLegal_answer s p⟩

theorem inv_raiseError {s : State} (hl : s.cfg.Legal) (hs : s.Shaped) (e : EngineError) : (s.raiseError e).Inv :=
  ⟨hl, hs, respLegal_raiseError s e⟩

theorem inv_writeSlot {s : State} (hi : s.Inv) {j : Nat} {v : Bits} (hj : j < 2 ^ s.cfg.tableKeyW)
    (hv : v.length = s.cfg.ctrW) : (s.writeSlot j v).Inv := by
  obtain ⟨hl, hs, hr⟩ := hi
  exact ⟨by rwa [writeSlot_cfg], shaped_writeSlot hs hj hv, by rwa [State.RespLegal, writeSlot_resp]⟩

theorem inv_writeHist {s : State} (hi : s.Inv) {r : Nat} {v : Bits} (hr : r < histCount s.cfg)
    (hv : v.length = s.cfg.histW) : (s.writeHist r v).Inv := by
  obtain ⟨hl, hs, hresp⟩ := hi
  exact ⟨by rwa [writeHist_cfg], shaped_writeHist hs hr hv, by rwa [State.RespLegal, writeHist_resp]⟩

/-- R141: the cleared storage has the shape of the variant. -/
theorem shaped_clear {s : State} (h : s.Shaped) : s.clear.Shaped := by
  unfold State.Shaped at *
  unfold State.clear
  cases hx : s.cfg.variant <;> simp only [hx] at h ⊢
  · exact ⟨zeros_length _, h.2.1, wf_nil _ _, h.2.2.2⟩
  · exact ⟨zeros_length _, h.2.1, h.2.2.1, wf_nil _ _⟩
  · exact ⟨h.1, wf_nil _ _, wf_nil _ _, h.2.2.2⟩

/-- Stepping the counter of an address keeps the invariant: its slot exists, and the block keeps its S bits. -/
theorem inv_stepSlot {s : State} (hi : s.Inv) (a : Bits) (o : BranchResult) :
    (s.writeSlot (toNumber (s.slotKey a)) (stepCounter (s.readSlot (toNumber (s.slotKey a))) o)).Inv := by
  have ⟨_, hs, _⟩ := hi
  exact inv_writeSlot hi (toNumber_lt_of_length (slotKey_length hs a))
    (by rw [stepCounter_length, shaped_readSlot_length hs])

theorem execPredict_keeps_inv {a : Bits} {s t : State} (hi : s.Inv) (h : execPredict a s = .next t) : t.Inv := by
  obtain ⟨hl, hs, -⟩ := hi
  rcases execPredict_cases a s with ⟨o, e⟩ | ⟨err, e, -⟩ <;> cases e.symm.trans h
  · exact inv_answer hl hs _
  · exact inv_raiseError hl hs err

theorem execUpdate_keeps_inv {a : Bits} {o : BranchResult} {s t : State} (hi : s.Inv)
    (h : execUpdate a o s = .next t) : t.Inv := by
  have ⟨hl, hs, _⟩ := hi
  by_cases ha : a.length = s.cfg.addrW
  · cases (execUpdate_eq hi ha o).symm.trans h
    obtain ⟨hl', hs', -⟩ := inv_writeHist (inv_stepSlot hi a o) (r := s.setNumber a)
      (v := shin (s.readHist (s.setNumber a)) (outcomeBit o))
      (by simpa using setNumber_lt s a) (by simp [shaped_readHist_length hs])
    exact inv_answer hl' hs' .zero
  · cases (execUpdate_badLength ha o).symm.trans h
    exact inv_raiseError hl hs _

theorem exec_command_keeps_inv {i : Instr} {s t : State} (hc : i.isCommand = true) (hi : s.Inv)
    (h : exec i s = .next t) : t.Inv := by
  have ⟨hl, hs, _⟩ := hi
  rcases (isCommand_iff i).mp hc with ⟨a, rfl⟩ | ⟨a, o, rfl⟩ | rfl | rfl
  · exact execPredict_keeps_inv hi h
  · exact execUpdate_keeps_inv hi h
  · cases h
    exact inv_answer hl hs .zero
  · cases h
    exact inv_answer (by rwa [clear_cfg]) (shaped_clear hs) .zero

theorem exec_micro_keeps_inv {i : Instr} {s t : State} (hc : i.isCommand = false) (hi : s.Inv)
    (h : exec i s = .next t) : t.Inv := by
  have ⟨_, hs, _⟩ := hi
  rcases exec_micro_cases hc h with ⟨r, rfl, -⟩ | ⟨j, v, hj, hv, rfl⟩ | ⟨r, v, hr, hv | hv, rfl⟩
  · exact hi
  · exact inv_writeSlot hi hj hv
  · exact inv_writeHist hi hr hv
  · exact inv_writeHist hi hr (hv.trans (shaped_readHist_length hs r))

theorem exec_keeps_inv {i : Instr} {s t : State} (hi : s.Inv) (h : exec i s = .next t) : t.Inv := by
  cases hc : i.isCommand
  · exact exec_micro_keeps_inv hc hi h
  · exact exec_command_keeps_inv hc hi h

/-- R21: no operation writes CFG. -/
theorem exec_cfg {i : Instr} {s t : State} (h : exec i s = .next t) : t.cfg = s.cfg := by
  cases hc : i.isCommand
  · rcases exec_micro_cases hc h with ⟨r, rfl, -⟩ | ⟨j, v, -, -, rfl⟩ | ⟨r, v, -, -, rfl⟩ <;> simp
  · rcases exec_command_cases hc h with ⟨s', p, m, rfl, ⟨hcfg, -⟩, -⟩ | ⟨e, rfl, -⟩
    · exact hcfg
    · rfl

/-! ### The answer of the command before -/

/-- The state with another last answer. -/
def State.setAnswer (s : State) (r : Option (BitVec 3)) (m : Option Snapshot) : State := { s with resp := r, mon := m }

/-- A command overwrites the last answer, so what it was is lost. -/
@[simp] theorem answer_setAnswer (s : State) (r : Option (BitVec 3)) (m : Option Snapshot) (p : Bit) :
    (s.setAnswer r m).answer p = s.answer p := rfl

@[simp] theorem clear_setAnswer (s : State) (r : Option (BitVec 3)) (m : Option Snapshot) :
    (s.setAnswer r m).clear = s.clear.setAnswer r m := by
  cases hx : s.cfg.variant <;> simp [State.clear, State.setAnswer, hx]

theorem writeSlot_setAnswer (s : State) (r : Option (BitVec 3)) (m : Option Snapshot) (j : Nat) (v : Bits) :
    (s.setAnswer r m).writeSlot j v = (s.writeSlot j v).setAnswer r m := by
  cases hx : s.cfg.variant <;> simp [State.writeSlot, State.setTable, State.table, State.setAnswer, hx]

theorem writeHist_setAnswer (s : State) (r : Option (BitVec 3)) (m : Option Snapshot) (k : Nat) (v : Bits) :
    (s.setAnswer r m).writeHist k v = (s.writeHist k v).setAnswer r m := by
  cases hx : s.cfg.variant <;> simp [State.writeHist, State.setAnswer, hx]

@[simp] theorem cacheWriteOp_setAnswer (s : State) (r : Option (BitVec 3)) (m : Option Snapshot) (k v : Bits) :
    cacheWriteOp (s.setAnswer r m) k v = (State.setAnswer · r m) <$> cacheWriteOp s k v := by
  simp only [cacheWriteOp, writeSlot_setAnswer, map_bind, map_pure]
  rfl

@[simp] theorem bankInsertOp_setAnswer (s : State) (r : Option (BitVec 3)) (m : Option Snapshot) (k : Bits) (b : Bit) :
    bankInsertOp (s.setAnswer r m) k b = (State.setAnswer · r m) <$> bankInsertOp s k b := by
  simp only [bankInsertOp, writeHist_setAnswer, map_bind, map_pure]
  rfl

@[simp] theorem finishPredict_setAnswer (s : State) (r : Option (BitVec 3)) (m : Option Snapshot)
    (x : Except EngineError BranchResult) : finishPredict (s.setAnswer r m) x = finishPredict s x := by
  cases x <;> rfl

@[simp] theorem finishUpdate_setAnswer (s : State) (r : Option (BitVec 3)) (m : Option Snapshot)
    (x : Except EngineError State) :
    finishUpdate (s.setAnswer r m) ((State.setAnswer · r m) <$> x) = finishUpdate s x := by
  cases x <;> rfl

theorem updateGAg_setAnswer (a : Bits) (o : BranchResult) (s : State) (r : Option (BitVec 3)) (m : Option Snapshot) :
    updateGAg a o (s.setAnswer r m) = (State.setAnswer · r m) <$> updateGAg a o s := by
  simp only [updateGAg, cacheWriteOp_setAnswer, bind_map_left, map_bind, map_pure]
  rfl

theorem updateGAs_setAnswer (a : Bits) (o : BranchResult) (s : State) (r : Option (BitVec 3)) (m : Option Snapshot) :
    updateGAs a o (s.setAnswer r m) = (State.setAnswer · r m) <$> updateGAs a o s := by
  simp only [updateGAs, cacheWriteOp_setAnswer, bind_map_left, map_bind, map_pure]
  rfl

theorem updateSAg_setAnswer (a : Bits) (o : BranchResult) (s : State) (r : Option (BitVec 3)) (m : Option Snapshot) :
    updateSAg a o (s.setAnswer r m) = (State.setAnswer · r m) <$> updateSAg a o s := by
  simp only [updateSAg, cacheWriteOp_setAnswer, bankInsertOp_setAnswer, bind_map_left, map_bind]
  rfl

theorem execPredict_setAnswer (a : Bits) (s : State) (r : Option (BitVec 3)) (m : Option Snapshot) :
    execPredict a (s.setAnswer r m) = execPredict a s := by
  have hcfg : (s.setAnswer r m).cfg = s.cfg := rfl
  unfold execPredict
  rw [hcfg]
  cases s.cfg.variant <;> exact finishPredict_setAnswer s r m _

theorem execUpdate_setAnswer (a : Bits) (o : BranchResult) (s : State) (r : Option (BitVec 3)) (m : Option Snapshot) :
    execUpdate a o (s.setAnswer r m) = execUpdate a o s := by
  have hcfg : (s.setAnswer r m).cfg = s.cfg := rfl
  unfold execUpdate
  rw [hcfg, updateGAg_setAnswer, updateGAs_setAnswer, updateSAg_setAnswer]
  cases s.cfg.variant <;> exact finishUpdate_setAnswer s r m _

/-! ### The obligations -/

/-- Settles O54, by the invariant's step lemma for commands and for micro-operations. -/
theorem everyStepKeepsInv : Obligations.EveryStepKeepsInv := by
  unfold Obligations.EveryStepKeepsInv
  intro s t hi h
  rcases step_cases h with rfl | ⟨r, rest, i, -, -, he⟩
  · exact hi
  · have hrest : ({ s with pending := rest } : State).Inv := hi
    exact exec_keeps_inv hrest he

/-- Settles O17: UPDATE is one write of a slot and one write of a register, and each has its own frame. -/
theorem updateFrame : Obligations.UpdateFrame := by
  unfold Obligations.UpdateFrame
  intro a o s hi ha
  have ⟨_, hs, _⟩ := hi
  have ⟨_, hw, _⟩ := inv_stepSlot hi a o
  refine ⟨_, execUpdate_eq hi ha o, ?slot, ?otherSlots, ?register, ?otherRegisters, ?gag, ?gas, ?sag, ?rest⟩
  case slot => simp [readSlot_writeSlot_same hs]
  case otherSlots => intro j hj; simp [readSlot_writeSlot_other s _ hj]
  case register => simp [readHist_writeHist_same hw]
  case otherRegisters =>
    intro r hr hne
    rw [answer_readHist, readHist_writeHist_other _ _ (by simpa using setNumber_lt s a) (by simpa using hr) hne,
      readHist_writeSlot]
  case gag => intro hv; simp [writeHist_gag, writeSlot_pspht, hv]
  case gas => intro hv; simp [writeHist_gas, writeSlot_pht, hv]
  case sag => intro hv; simp [writeHist_sag, writeSlot_pspht, hv]
  case rest => simp

/-- Settles O27: every command reads CFG, histories and tables only, and overwrites the answer before it. -/
theorem responsesAreNotRead : Obligations.ResponsesAreNotRead := by
  unfold Obligations.ResponsesAreNotRead
  intro i s r m hc
  change exec i (s.setAnswer r m) = exec i s
  rcases (isCommand_iff i).mp hc with ⟨a, rfl⟩ | ⟨a, o, rfl⟩ | rfl | rfl
  · exact execPredict_setAnswer a s r m
  · exact execUpdate_setAnswer a o s r m
  · rfl
  · simp [exec, execReset]

/-- Settles O50: PREDICT, with or without an error, and MONITOR give the state before with another answer. -/
theorem onlyUpdateAndResetWrite : Obligations.OnlyUpdateAndResetWrite := by
  unfold Obligations.OnlyUpdateAndResetWrite
  intro i s t hc h hne
  have hsame (u : State) (hu : ∃ r m, u = s.setAnswer r m) : s.SameEngine u := by
    obtain ⟨r, m, rfl⟩ := hu
    exact ⟨rfl, rfl, rfl, rfl, rfl⟩
  rcases (isCommand_iff i).mp hc with ⟨a, rfl⟩ | hupdate | rfl | rfl
  · refine absurd (hsame t ?_) hne
    rcases execPredict_cases a s with ⟨o, e⟩ | ⟨err, e, -⟩ <;> cases e.symm.trans h <;> exact ⟨_, _, rfl⟩
  · exact .inl hupdate
  · cases h
    exact absurd (hsame _ ⟨_, _, rfl⟩) hne
  · exact .inr rfl

/-- Settles O51: waiting changes nothing, and no operation writes CFG. -/
theorem configurationIsReadOnly : Obligations.ConfigurationIsReadOnly := by
  unfold Obligations.ConfigurationIsReadOnly
  intro s t h
  rcases step_cases h with rfl | ⟨r, rest, i, -, -, he⟩
  · rfl
  · have hcfg := exec_cfg he
    exact hcfg

/-- Settles O39: the key of no bit has the width of the bank of one register and the value 0. -/
theorem bankOfOneRegister : Obligations.BankOfOneRegister := by
  unfold Obligations.BankOfOneRegister
  intro b s hv
  have hkey : ([] : Bits).length = s.cfg.bankKeyW := (bankKeyW_of_ne_sag hv).symm
  constructor
  · simp only [exec, execRbRead, bankReadOp_ok hkey, readHist_of_ne_sag hv, finishRead_ok]
    rfl
  · simp only [exec, execRbInsert, bankInsertOp_ok hkey, readHist_of_ne_sag hv, writeHist_of_ne_sag hv, finishWrite_ok]
    rfl

end Sys2Proof.Machine

/-! PROOFS of the statement about the ordering of commands in spec/20_memory.md (R49). No operation reads or writes the queue of
pending requests, so executing one commutes with replacing the queue; only `step` takes a request from it. -/

namespace Sys2Proof.Machine

/-! ### Another queue: what the shared operations make of it -/

/-- The state with another queue of pending requests. -/
def State.setPending (s : State) (rs : List Request) : State := { s with pending := rs }

/-- An outcome with another state where it goes on, and the same stop where it does not. -/
def mapNext (f : State → State) : Host.Outcome State Fault Refusal → Host.Outcome State Fault Refusal
  | .next s => .next (f s)
  | .fault r => .fault r
  | .refused r => .refused r

theorem mapNext_eq_next {f : State → State} {x : Host.Outcome State Fault Refusal} {t : State}
    (h : mapNext f x = .next t) : ∃ u, x = .next u ∧ t = f u := by
  cases x <;> cases h
  exact ⟨_, rfl, rfl⟩

theorem clear_setPending (s : State) (rs : List Request) : (s.setPending rs).clear = s.clear.setPending rs := by
  cases hx : s.cfg.variant <;> simp [State.clear, State.setPending, hx]

theorem writeSlot_setPending (s : State) (rs : List Request) (j : Nat) (v : Bits) :
    (s.setPending rs).writeSlot j v = (s.writeSlot j v).setPending rs := by
  cases hx : s.cfg.variant <;> simp [State.writeSlot, State.setTable, State.table, State.setPending, hx]

theorem writeHist_setPending (s : State) (rs : List Request) (r : Nat) (v : Bits) :
    (s.setPending rs).writeHist r v = (s.writeHist r v).setPending rs := by
  cases hx : s.cfg.variant <;> simp [State.writeHist, State.setPending, hx]

theorem cacheWriteOp_setPending (s : State) (rs : List Request) (k v : Bits) :
    cacheWriteOp (s.setPending rs) k v = (State.setPending · rs) <$> cacheWriteOp s k v := by
  simp only [cacheWriteOp, writeSlot_setPending, map_bind, map_pure]
  rfl

theorem bankInsertOp_setPending (s : State) (rs : List Request) (k : Bits) (b : Bit) :
    bankInsertOp (s.setPending rs) k b = (State.setPending · rs) <$> bankInsertOp s k b := by
  simp only [bankInsertOp, writeHist_setPending, map_bind, map_pure]
  rfl

theorem srSetOp_setPending (s : State) (rs : List Request) (r : Nat) (v : Bits) :
    srSetOp (s.setPending rs) r v = (State.setPending · rs) <$> srSetOp s r v := by
  simp only [srSetOp, writeHist_setPending, map_bind, map_pure]
  rfl

theorem finishPredict_setPending (s : State) (rs : List Request) (x : Except EngineError BranchResult) :
    finishPredict (s.setPending rs) x = mapNext (State.setPending · rs) (finishPredict s x) := by
  cases x <;> rfl

theorem finishUpdate_setPending (s : State) (rs : List Request) (x : Except EngineError State) :
    finishUpdate (s.setPending rs) ((State.setPending · rs) <$> x) = mapNext (State.setPending · rs) (finishUpdate s x) := by
  cases x <;> rfl

theorem finishRead_setPending (s : State) (rs : List Request) (x : Except EngineError Bits) :
    finishRead (s.setPending rs) x = mapNext (State.setPending · rs) (finishRead s x) := by
  cases x <;> rfl

theorem finishWrite_setPending (s : State) (rs : List Request) (x : Except EngineError State) :
    finishWrite (s.setPending rs) ((State.setPending · rs) <$> x) = mapNext (State.setPending · rs) (finishWrite s x) := by
  cases x <;> rfl

/-! ### Executing an operation commutes with replacing the queue -/

theorem execPredict_setPending (a : Bits) (s : State) (rs : List Request) :
    execPredict a (s.setPending rs) = mapNext (State.setPending · rs) (execPredict a s) := by
  have hcfg : (s.setPending rs).cfg = s.cfg := rfl
  unfold execPredict
  rw [hcfg]
  cases s.cfg.variant <;> exact finishPredict_setPending s rs _

theorem updateGAg_setPending (a : Bits) (o : BranchResult) (s : State) (rs : List Request) :
    updateGAg a o (s.setPending rs) = (State.setPending · rs) <$> updateGAg a o s := by
  simp only [updateGAg, cacheWriteOp_setPending, bind_map_left, map_bind, map_pure]
  rfl

theorem updateGAs_setPending (a : Bits) (o : BranchResult) (s : State) (rs : List Request) :
    updateGAs a o (s.setPending rs) = (State.setPending · rs) <$> updateGAs a o s := by
  simp only [updateGAs, cacheWriteOp_setPending, bind_map_left, map_bind, map_pure]
  rfl

theorem updateSAg_setPending (a : Bits) (o : BranchResult) (s : State) (rs : List Request) :
    updateSAg a o (s.setPending rs) = (State.setPending · rs) <$> updateSAg a o s := by
  simp only [updateSAg, cacheWriteOp_setPending, bankInsertOp_setPending, bind_map_left, map_bind]
  rfl

theorem execUpdate_setPending (a : Bits) (o : BranchResult) (s : State) (rs : List Request) :
    execUpdate a o (s.setPending rs) = mapNext (State.setPending · rs) (execUpdate a o s) := by
  have hcfg : (s.setPending rs).cfg = s.cfg := rfl
  unfold execUpdate
  rw [hcfg, updateGAg_setPending, updateGAs_setPending, updateSAg_setPending]
  cases s.cfg.variant <;> exact finishUpdate_setPending s rs _

theorem execReset_setPending (s : State) (rs : List Request) :
    execReset (s.setPending rs) = mapNext (State.setPending · rs) (execReset s) := by
  unfold execReset
  rw [clear_setPending]
  rfl

theorem execSrShift_setPending (reg : Bits) (b : Bit) (s : State) (rs : List Request) :
    execSrShift reg b (s.setPending rs) = mapNext (State.setPending · rs) (execSrShift reg b s) := by
  simp only [execSrShift, writeHist_setPending, apply_ite (mapNext _)]
  rfl

theorem execSrSet_setPending (reg v : Bits) (s : State) (rs : List Request) :
    execSrSet reg v (s.setPending rs) = mapNext (State.setPending · rs) (execSrSet reg v s) := by
  simp only [execSrSet, srSetOp_setPending, finishWrite_setPending, apply_ite (mapNext _)]
  rfl

/-- No operation reads or writes the queue: with another queue it does the same and leaves that queue. -/
theorem exec_setPending (i : Instr) (s : State) (rs : List Request) :
    exec i (s.setPending rs) = mapNext (State.setPending · rs) (exec i s) := by
  cases i
  case predict a => exact execPredict_setPending a s rs
  case update a o => exact execUpdate_setPending a o s rs
  case monitor => rfl
  case reset => exact execReset_setPending s rs
  case bitXor => simp only [exec, execBitXor, apply_ite (mapNext _)]; rfl
  case toNumber => rfl
  case srRead => simp only [exec, execSrRead, apply_ite (mapNext _)]; rfl
  case srShift reg b => exact execSrShift_setPending reg b s rs
  case srSet reg v => exact execSrSet_setPending reg v s rs
  case rbRead k => exact finishRead_setPending s rs (bankReadOp s k)
  case rbInsert k b =>
    exact (congrArg _ (bankInsertOp_setPending s rs k b)).trans (finishWrite_setPending s rs _)
  case ctrInc => rfl
  case ctrDec => rfl
  case ctrPred => simp only [exec, execCtrPred, apply_ite (mapNext _)]; rfl
  case cacheRead k => exact finishRead_setPending s rs (cacheReadOp s k)
  case cacheWrite k v =>
    exact (congrArg _ (cacheWriteOp_setPending s rs k v)).trans (finishWrite_setPending s rs _)
  case cacheUpdate k v =>
    exact (congrArg _ (cacheWriteOp_setPending s rs k v)).trans (finishWrite_setPending s rs _)
  case hashXor a => exact finishRead_setPending s rs (hashOp s.cfg a)
  case concat => rfl
  case bitCmp => rfl

/-! ### Steps and runs -/

/-- R144, R45: a step is the whole of the oldest request's operation, and leaves the requests behind it. -/
theorem step_setPending_of_decode {r : Request} {i : Instr} (hd : decode r = .ok i) (s : State) (rest : List Request) :
    step (s.setPending (r :: rest)) = mapNext (State.setPending · rest) (exec i s) := by
  rw [← exec_setPending]
  simp [step, State.setPending, hd]

/-- R49 for one step: serving `r` does one thing to the engine, whatever stands behind `r` in the queue. -/
theorem step_setPending_cons {s t : State} {r : Request} {rest : List Request}
    (h : step (s.setPending (r :: rest)) = .next t) :
    ∃ u : State, t = u.setPending rest ∧
      ∀ rest', step (s.setPending (r :: rest')) = .next (u.setPending rest') := by
  cases hd : decode r with
  | error e => simp [step, State.setPending, hd] at h
  | ok i =>
    rw [step_setPending_of_decode hd] at h
    obtain ⟨u, hu, rfl⟩ := mapNext_eq_next h
    exact ⟨u, rfl, fun rest' => by rw [step_setPending_of_decode hd, hu, mapNext]⟩

theorem run_succ_of_step {s u : State} (n : Nat) (h : step s = .next u) :
    Host.Core.run core (n + 1) s = Host.Core.run core n u := by
  have hcore : core.step s = .next u := h
  simp only [Host.Core.run, hcore]

/-- A run that goes on has gone on at its first step. -/
theorem step_of_run_succ {s t : State} {n : Nat} (h : Host.Core.run core (n + 1) s = .next t) :
    ∃ u : State, step s = .next u ∧ Host.Core.run core n u = .next t := by
  simp only [Host.Core.run] at h
  split at h
  · next u hu => exact ⟨u, hu, h⟩
  · cases h
  · cases h

/-! ### The obligation -/

/-- Settles O10, by induction on the served requests: no step looks behind the request it serves. -/
theorem laterCommandsUnobserved : Obligations.LaterCommandsUnobserved := by
  unfold Obligations.LaterCommandsUnobserved
  intro cs ds s t h
  change Host.Core.run core cs.length (s.setPending cs) = .next t at h
  change Host.Core.run core cs.length (s.setPending (cs ++ ds)) = .next (t.setPending ds)
  induction cs generalizing s with
  | nil =>
    cases h
    rfl
  | cons r cs ih =>
    obtain ⟨t', ht', hrun⟩ := step_of_run_succ h
    obtain ⟨u, rfl, hserve⟩ := step_setPending_cons ht'
    exact (run_succ_of_step _ (hserve (cs ++ ds))).trans (ih u hrun)

end Sys2Proof.Machine

/-! PROOFS of the statements of spec/30_encoding.md: the command words, the micro-operation codes, what a micro-operation shows at
the ports, and the assembler's lines. -/

namespace Sys2Proof.Machine

/-! ### The command words, by OP (R61, R62) -/

theorem decode_op_predict {cmd : BitVec 3} (h : cmdOp cmd = 0b00#2) (a : Bits) :
    decode (.command cmd a) = .ok (.predict a) := by
  simp [decode, decodeCommand, h]

theorem decode_op_update {cmd : BitVec 3} (h : cmdOp cmd = 0b01#2) (a : Bits) :
    decode (.command cmd a) = .ok (.update a (outcomeOfT (cmdT cmd))) := by
  simp [decode, decodeCommand, h]

theorem decode_op_monitor {cmd : BitVec 3} (h : cmdOp cmd = 0b10#2) (a : Bits) :
    decode (.command cmd a) = .ok .monitor := by
  simp [decode, decodeCommand, h]

theorem decode_op_reset {cmd : BitVec 3} (h : cmdOp cmd = 0b11#2) (a : Bits) :
    decode (.command cmd a) = .ok .reset := by
  simp [decode, decodeCommand, h]

/-- R62: OP has four values, and each is a command's. -/
theorem op_cases (op : BitVec 2) : op = 0b00#2 ∨ op = 0b01#2 ∨ op = 0b10#2 ∨ op = 0b11#2 := by
  revert op; decide

@[simp] theorem tOfOutcome_outcomeOfT (t : Bool) : tOfOutcome (outcomeOfT t) = t := by cases t <;> rfl

/-- R61, R63, R64: the word and the address that the encoder writes for a decoded command word. -/
theorem encode_of_decode_command {cmd : BitVec 3} {a : Bits} {i : Instr} (n : Nat)
    (h : decode (.command cmd a) = .ok i) :
    encode n i = .command (cmdWord (cmdOp cmd) (decide (cmdOp cmd = 0b01#2) && cmdT cmd))
      (if cmdOp cmd = 0b00#2 ∨ cmdOp cmd = 0b01#2 then a else zeros n) := by
  rcases op_cases (cmdOp cmd) with hop | hop | hop | hop
  · cases (decode_op_predict hop a).symm.trans h; simp [encode, hop]
  · cases (decode_op_update hop a).symm.trans h; simp [encode, hop]
  · cases (decode_op_monitor hop a).symm.trans h; simp [encode, hop]
  · cases (decode_op_reset hop a).symm.trans h; simp [encode, hop]

/-! ### Decoding and encoding -/

/-- The round trip of every constructor, assembled. -/
theorem decode_encode (n : Nat) : (i : Instr) → decode (encode n i) = .ok i
  | .predict a => Laws.RoundTrip.predict a n
  | .update a o => Laws.RoundTrip.update a o n
  | .monitor => Laws.RoundTrip.monitor n
  | .reset => Laws.RoundTrip.reset n
  | .bitXor a b => Laws.RoundTrip.bitXor a b n
  | .toNumber v => Laws.RoundTrip.toNumber v n
  | .srRead r => Laws.RoundTrip.srRead r n
  | .srShift r b => Laws.RoundTrip.srShift r b n
  | .srSet r v => Laws.RoundTrip.srSet r v n
  | .rbRead k => Laws.RoundTrip.rbRead k n
  | .rbInsert k b => Laws.RoundTrip.rbInsert k b n
  | .ctrInc c => Laws.RoundTrip.ctrInc c n
  | .ctrDec c => Laws.RoundTrip.ctrDec c n
  | .ctrPred c => Laws.RoundTrip.ctrPred c n
  | .cacheRead k => Laws.RoundTrip.cacheRead k n
  | .cacheWrite k v => Laws.RoundTrip.cacheWrite k v n
  | .cacheUpdate k v => Laws.RoundTrip.cacheUpdate k v n
  | .hashXor a => Laws.RoundTrip.hashXor a n
  | .concat a b => Laws.RoundTrip.concat a b n
  | .bitCmp a b => Laws.RoundTrip.bitCmp a b n

theorem decode_micro_ok_iff {u : BitVec 4} {ops : List Bits} {i : Instr} :
    decode (.micro u ops) = .ok i ↔ decodeMicro u ops = some i := by
  cases h : decodeMicro u ops <;> simp [decode, h]

/-- Each of the sixteen codes fixes the shape of its operand list, so the decoded operation carries the whole request. -/
theorem encode_of_decode_micro {u : BitVec 4} {ops : List Bits} {i : Instr} (n : Nat)
    (h : decode (.micro u ops) = .ok i) : encode n i = .micro u ops := by
  rw [decode_micro_ok_iff] at h
  have code {k : BitVec 4} (hk : u.toNat = k.toNat) : k = u := BitVec.eq_of_toNat_eq hk.symm
  unfold decodeMicro at h
  split at h <;> cases h <;> next hk => exact congrArg (Request.micro · _) (code hk)

/-- R68: the encoder writes a request at the ports for the commands and for nothing else. -/
theorem encode_isCommand (n : Nat) (i : Instr) : (encode n i).isCommand = i.isCommand := by cases i <;> rfl

/-! ### The assembler's addresses (R71) -/

theorem asmAddress_of_lt {n addr : Nat} (h : addr < 2 ^ n) : asmAddress n addr = some (zext n addr) := if_pos h

theorem asmAddress_of_le {n addr : Nat} (h : 2 ^ n ≤ addr) : asmAddress n addr = none := if_neg h.not_gt

/-! ### The obligations -/

/-- Settles O3: the round trip of every operation, and that a decoded micro-operation request is the encoder's. -/
theorem decodeEncodeAgree : Obligations.DecodeEncodeAgree := by
  unfold Obligations.DecodeEncodeAgree
  exact ⟨decode_encode, fun n _ _ _ h => encode_of_decode_micro n h⟩

/-- Settles O4, by the four values of OP. -/
theorem commandWordsReencode : Obligations.CommandWordsReencode := by
  unfold Obligations.CommandWordsReencode
  exact fun n _ _ _ h => encode_of_decode_command n h

/-- Settles O5: encoding what a request selects gives back a request of the same kind, and the encoder keeps the kind. -/
theorem noCommandIssuesMicroOp : Obligations.NoCommandIssuesMicroOp := by
  unfold Obligations.NoCommandIssuesMicroOp
  intro r i h
  rw [← encode_isCommand 0 i]
  cases r with
  | command cmd a => rw [encode_of_decode_command 0 h]; rfl
  | micro u ops => rw [encode_of_decode_micro 0 h]

/-- Settles O52: a micro-operation gives a result, after at most one write of a slot or of a register. -/
theorem microOpsAreInvisibleAtPorts : Obligations.MicroOpsAreInvisibleAtPorts := by
  unfold Obligations.MicroOpsAreInvisibleAtPorts
  intro i s t hc h
  rcases exec_micro_cases hc h with ⟨r, rfl, -⟩ | ⟨j, v, -, -, rfl⟩ | ⟨r, v, -, -, rfl⟩ <;> simp [State.SamePorts]

/-- Settles O58: a literal below `2^N` becomes its N bits, and the three lines that carry one differ only in what they issue. -/
theorem assemblerMakesStep : Obligations.AssemblerMakesStep := by
  unfold Obligations.AssemblerMakesStep
  intro n addr o
  constructor
  · intro h
    have hval : toNumber (zext n addr) = addr := (toNumber_zext n addr).trans (Nat.mod_eq_of_lt h)
    exact ⟨zext n addr, zext_length n addr, hval, by simp [assembleLine, asmAddress_of_lt h]⟩
  · intro h
    simp [assembleLine, asmAddress_of_le h]

/-- Settles O1: OP selects the command, and `T` the outcome of UPDATE. -/
theorem everyCommandWordDecodes : Obligations.EveryCommandWordDecodes := by
  unfold Obligations.EveryCommandWordDecodes
  intro a
  exact ⟨decode_op_predict rfl a, decode_op_predict rfl a, decode_op_update rfl a, decode_op_update rfl a,
    decode_op_monitor rfl a, decode_op_monitor rfl a, decode_op_reset rfl a, decode_op_reset rfl a⟩

/-- Settles O2: each code written out is the one that the encoder writes for its operation. -/
theorem everyMicroCodeDecodes : Obligations.EveryMicroCodeDecodes := by
  unfold Obligations.EveryMicroCodeDecodes
  intro u v x y
  exact ⟨decode_encode 0 (.bitXor u v), decode_encode 0 (.toNumber u), decode_encode 0 (.srRead u),
    decode_encode 0 (.srShift u x), decode_encode 0 (.srSet u v), decode_encode 0 (.rbRead u),
    decode_encode 0 (.rbInsert u x), decode_encode 0 (.ctrInc u), decode_encode 0 (.ctrDec u),
    decode_encode 0 (.ctrPred u), decode_encode 0 (.cacheRead u), decode_encode 0 (.cacheWrite u v),
    decode_encode 0 (.cacheUpdate u v), decode_encode 0 (.hashXor u), decode_encode 0 (.concat u v),
    decode_encode 0 (.bitCmp x y)⟩

end Sys2Proof.Machine

/-! PROOFS of the statements of spec/40_substrate.md: what each micro-operation on bits, registers, counters, tables and hashes
gives and leaves unchanged, and the laws of the values they work on. -/

namespace Sys2Proof.Machine

/-! ### Bits and bit sequences (§1) -/

@[simp] theorem xorBit_zero (x : Bit) : xorBit x .zero = x := by cases x <;> rfl

@[simp] theorem zero_xorBit (x : Bit) : xorBit .zero x = x := by cases x <;> rfl

/-- XOR of Bits may be taken in either grouping. -/
theorem xorBit_xorBit_xorBit_comm (p q x y : Bit) :
    xorBit (xorBit p q) (xorBit x y) = xorBit (xorBit p x) (xorBit q y) := by
  cases p <;> cases q <;> cases x <;> cases y <;> rfl

theorem xorBits_getElem? {a b : Bits} (hl : a.length = b.length) {j : Nat} (hj : j < a.length) :
    (xorBits a b)[j]? = some (if a[j]? = b[j]? then Bit.zero else Bit.one) := by
  have ha := List.getElem?_eq_getElem hj
  have hb := List.getElem?_eq_getElem (hl ▸ hj)
  simp [xorBits, List.getElem?_zipWith, ha, hb, xorBit]

theorem xorBits_zeros (k : Nat) : xorBits (zeros k) (zeros k) = zeros k := by simp [xorBits, zeros]

theorem xorBits_concat {a b : Bits} (hl : a.length = b.length) (x y : Bit) :
    xorBits (a ++ [x]) (b ++ [y]) = xorBits a b ++ [xorBit x y] := List.zipWith_append hl

/-- R84: the number of a sequence as the sum of the weights of its elements, element 0 the heaviest. -/
theorem toNumber_eq_sum (v : Bits) :
    toNumber v = ∑ j ∈ Finset.range v.length, (v.getD j .zero).toNat * 2 ^ (v.length - 1 - j) := by
  induction v with
  | nil => rfl
  | cons b v ih =>
    have hexp (j : Nat) : v.length - 1 - j = v.length - (j + 1) := by omega
    rw [toNumber_cons, ih, List.length_cons, Finset.sum_range_succ', add_comm]
    simp only [hexp, List.getD_cons_succ, List.getD_cons_zero, Nat.add_sub_cancel, Nat.sub_zero]

/-- R98: the value is in the upper half iff the leading bit is ONE. -/
theorem upper_half_iff_head {c : Bits} (hc : 1 ≤ c.length) :
    2 ^ (c.length - 1) ≤ toNumber c ↔ c.head? = some .one := by
  cases c with
  | nil => simp at hc
  | cons x c =>
    have hlt := toNumber_lt c
    rw [toNumber_cons]
    cases x <;> simp [Bit.toNat, hlt]

/-! ### Shift registers (§2) -/

/-- R90: inserting `bs` into `h` appends `bs` and drops as many of the oldest Bits. -/
theorem foldl_shin (h bs : Bits) : bs.foldl shin h = (h ++ bs).drop bs.length := by
  induction bs generalizing h with
  | nil => simp
  | cons b bs ih =>
    have hshift : shin h b ++ bs = (h ++ b :: bs).drop 1 := by
      rw [shin, ← List.drop_append_of_le_length (by simp), List.append_assoc, List.singleton_append]
    rw [List.foldl_cons, ih, hshift, List.drop_drop, List.length_cons, Nat.add_comm]

@[simp] theorem giveUop_readHist (s : State) (u : UopResult) (r : Nat) : (s.giveUop u).readHist r = s.readHist r := rfl

@[simp] theorem giveUop_readSlot (s : State) (u : UopResult) (j : Nat) : (s.giveUop u).readSlot j = s.readSlot j := rfl

theorem writeHist_psbhr {s : State} (h : s.cfg.variant ≠ .sag) (r : Nat) (v : Bits) :
    (s.writeHist r v).psbhr = s.psbhr := by
  rw [writeHist_of_ne_sag h]

theorem writeHist_bhr {s : State} (h : s.cfg.variant = .sag) (r : Nat) (v : Bits) : (s.writeHist r v).bhr = s.bhr := by
  rw [writeHist_sag h]

/-- The whole effect of a micro-operation that writes register `r`: the register holds `v`, all else is as before. -/
theorem writeHist_giveUop_frame {s : State} (hs : s.Shaped) {r : Nat} (hr : r < histCount s.cfg) (v : Bits) :
    let t := (s.writeHist r v).giveUop .done
    t.readHist r = v ∧
      (∀ r', r' < histCount s.cfg → r' ≠ r → t.readHist r' = s.readHist r') ∧
      (s.cfg.variant ≠ .sag → t.psbhr = s.psbhr) ∧ (s.cfg.variant = .sag → t.bhr = s.bhr) ∧
      t.pht = s.pht ∧ t.pspht = s.pspht ∧ s.SamePorts t ∧ t.uop = some .done := by
  refine ⟨?register, ?others, ?bank, ?bhr, ?rest⟩
  case register => simpa using readHist_writeHist_same hs r v
  case others => intro r' hr' hne; simpa using readHist_writeHist_other s v hr hr' hne
  case bank => intro hv; simpa using writeHist_psbhr hv r v
  case bhr => intro hv; simpa using writeHist_bhr hv r v
  case rest => simp [State.SamePorts]

theorem exec_srRead_ok {s : State} {reg : Bits} (h : toNumber reg < histCount s.cfg) :
    exec (.srRead reg) s = .next (s.giveUop (.bits (s.readHist (toNumber reg)))) := if_pos h

theorem exec_srShift_ok {s : State} {reg : Bits} (h : toNumber reg < histCount s.cfg) (b : Bit) :
    exec (.srShift reg b) s =
      .next ((s.writeHist (toNumber reg) (shin (s.readHist (toNumber reg)) b)).giveUop .done) := if_pos h

theorem exec_srSet_ok {s : State} {reg values : Bits} (h : toNumber reg < histCount s.cfg)
    (hl : values.length = s.cfg.histW) :
    exec (.srSet reg values) s = .next ((s.writeHist (toNumber reg) values).giveUop .done) := by
  simp [exec, execSrSet, srSetOp, h, checkLength_ok hl, pure, Except.pure]

theorem exec_srSet_badLength {s : State} {reg values : Bits} (h : toNumber reg < histCount s.cfg)
    (hl : values.length ≠ s.cfg.histW) :
    exec (.srSet reg values) s = .next (s.giveUop (.raised (.lengthMismatch values.length s.cfg.histW))) := by
  simp [exec, execSrSet, srSetOp, h, checkLength_error hl]

/-! ### Counters (§4) -/

/-- R101: `n` increments add `n`, up to the top. -/
theorem toNumber_foldl_taken (n : Nat) (c : Bits) :
    toNumber ((List.replicate n BranchResult.taken).foldl stepCounter c) = min (toNumber c + n) (2 ^ c.length - 1) := by
  induction n generalizing c with
  | zero => exact (min_eq_left (Nat.le_sub_one_of_lt (toNumber_lt c))).symm
  | succ n ih =>
    rw [List.replicate_succ, List.foldl_cons, ih, stepCounter_length, stepCounter, toNumber_incCounter]
    omega

/-- R101: `n` decrements take `n` away, down to 0. -/
theorem toNumber_foldl_notTaken (n : Nat) (c : Bits) :
    toNumber ((List.replicate n BranchResult.notTaken).foldl stepCounter c) = toNumber c - n := by
  induction n generalizing c with
  | zero => rfl
  | succ n ih =>
    rw [List.replicate_succ, List.foldl_cons, ih, stepCounter, toNumber_decCounter]
    omega

theorem foldl_stepCounter_length (os : List BranchResult) (c : Bits) : (os.foldl stepCounter c).length = c.length := by
  induction os generalizing c with
  | nil => rfl
  | cons o os ih => rw [List.foldl_cons, ih, stepCounter_length]

theorem valueClass_notTaken_iff (c : Bits) : valueClass c = .notTaken ↔ toNumber c < 2 ^ (c.length - 1) := by
  rw [← not_le, ← valueClass_taken_iff]
  cases valueClass c <;> simp

/-- From two bits on, the number of values is twice the threshold of R98, and the threshold is at least 2. -/
theorem two_le_threshold {n : Nat} (h : 2 ≤ n) : 2 ^ n = 2 * 2 ^ (n - 1) ∧ 2 ≤ 2 ^ (n - 1) := by
  obtain ⟨m, rfl⟩ : ∃ m, n = m + 2 := ⟨n - 2, by omega⟩
  have hm := Nat.two_pow_pos m
  constructor
  · exact pow_succ' 2 (m + 1)
  · rw [Nat.add_sub_cancel_right (m + 1) 1, pow_succ]; omega

/-! ### Tables (§5) -/

/-- The whole effect of a micro-operation that writes slot `j`: the slot holds `v`, all else is as before. -/
theorem writeSlot_giveUop_frame {s : State} (hs : s.Shaped) (j : Nat) (v : Bits) :
    let t := (s.writeSlot j v).giveUop .done
    t.readSlot j = v ∧ (∀ i, i ≠ j → t.readSlot i = s.readSlot i) ∧
      (s.cfg.variant = .gas → t.pht = s.pht) ∧ (s.cfg.variant ≠ .gas → t.pspht = s.pspht) ∧
      t.bhr = s.bhr ∧ t.psbhr = s.psbhr ∧ s.SamePorts t ∧ t.uop = some .done := by
  refine ⟨?slot, ?others, ?pht, ?pspht, ?rest⟩
  case slot => simpa using readSlot_writeSlot_same hs j v
  case others => intro i hij; simpa using readSlot_writeSlot_other s v hij
  case pht => intro hv; simpa using writeSlot_pht hv j v
  case pspht => intro hv; simpa using writeSlot_pspht hv j v
  case rest => simp [State.SamePorts]

/-- R105: CACHE_UPDATE is exactly CACHE_WRITE. -/
theorem exec_cacheWrite_or_cacheUpdate {key v : Bits} {i : Instr} (h : i = .cacheWrite key v ∨ i = .cacheUpdate key v)
    (s : State) : exec i s = finishWrite s (cacheWriteOp s key v) := by
  rcases h with rfl | rfl <;> rfl

/-- A canonical table cannot list its first slot before a table that reads alike there: the other reads ZEROs below its own
first slot, and no all-ZERO entry is listed. -/
theorem first_slot_not_lt {w size lo k k' : Nat} {v v' : Bits} {m m' : Memory}
    (h : Memory.wfFrom w size lo ((k, v) :: m) = true) (h' : Memory.wfFrom w size lo ((k', v') :: m') = true)
    (hread : Memory.read w ((k, v) :: m) k = Memory.read w ((k', v') :: m') k) : ¬ k < k' := by
  intro hlt
  obtain ⟨-, -, -, hv, -⟩ := (wfFrom_cons_iff ..).mp h
  obtain ⟨-, hrest'⟩ := (wfFrom_cons_iff ..).mp h'
  have hbelow := read_below ((wfFrom_cons_iff w size k' k' v' m').mpr ⟨le_refl k', hrest'⟩) hlt
  rw [hbelow] at hread
  exact hv (by simpa [Memory.read] using hread)

/-- The canonical form is one form, from any lower bound. -/
theorem eq_of_wfFrom_of_read_eq {w size lo : Nat} {m n : Memory} (hm : Memory.wfFrom w size lo m = true)
    (hn : Memory.wfFrom w size lo n = true) (hread : ∀ j, Memory.read w m j = Memory.read w n j) : m = n := by
  induction m generalizing lo n with
  | nil =>
    cases n with
    | nil => rfl
    | cons e n =>
      obtain ⟨k, v⟩ := e
      obtain ⟨-, -, -, hv, -⟩ := (wfFrom_cons_iff ..).mp hn
      exact absurd (by simpa [Memory.read] using (hread k).symm) hv
  | cons e m ih =>
    obtain ⟨k, v⟩ := e
    cases n with
    | nil =>
      obtain ⟨-, -, -, hv, -⟩ := (wfFrom_cons_iff ..).mp hm
      exact absurd (by simpa [Memory.read] using hread k) hv
    | cons e n =>
      obtain ⟨k', v'⟩ := e
      obtain rfl : k = k' := le_antisymm (not_lt.mp (first_slot_not_lt hn hm (hread k').symm))
        (not_lt.mp (first_slot_not_lt hm hn (hread k)))
      obtain rfl : v = v' := by simpa [Memory.read] using hread k
      obtain ⟨-, -, -, -, hm'⟩ := (wfFrom_cons_iff ..).mp hm
      obtain ⟨-, -, -, -, hn'⟩ := (wfFrom_cons_iff ..).mp hn
      rw [ih hm' hn' fun j => ?_]
      rcases Nat.lt_or_ge j (k + 1) with hj | hj
      · rw [read_below hm' hj, read_below hn' hj]
      · simpa [Memory.read, show k ≠ j by omega] using hread j

/-! ### The hash (§6) -/

theorem hashLoop_append (k i : Nat) (out a b : Bits) :
    hashLoop k i out (a ++ b) = hashLoop k (i + a.length) (hashLoop k i out a) b := by
  induction a generalizing i out with
  | nil => rfl
  | cons x a ih => rw [List.cons_append, hashLoop, hashLoop, ih, List.length_cons, Nat.add_assoc, Nat.add_comm 1]

@[simp] theorem hashFold_nil (k : Nat) : hashFold k [] = zeros k := rfl

/-- R108: one more address element is XORed into the output element of its residue. -/
theorem hashFold_concat (k : Nat) (a : Bits) (b : Bit) :
    hashFold k (a ++ [b]) = (hashFold k a).modify (a.length % k) (xorBit · b) := by
  rw [hashFold, hashLoop_append, Nat.zero_add]
  rfl

/-- A ZERO element changes nothing of the hash, so neither do ZEROs at the end. -/
theorem hashFold_append_zeros (k : Nat) (a : Bits) (m : Nat) : hashFold k (a ++ zeros m) = hashFold k a := by
  induction m with
  | zero => rw [zeros, List.replicate_zero, List.append_nil]
  | succ m ih =>
    have hid : (xorBit · Bit.zero) = id := funext xorBit_zero
    rw [zeros, List.replicate_succ', ← List.append_assoc, hashFold_concat, hid, List.modify_id]
    exact ih

/-- Up to K elements stand in the hash as they are, each alone in its residue class. -/
theorem hashFold_of_length_le {k : Nat} {a : Bits} (h : a.length ≤ k) : hashFold k a = a ++ zeros (k - a.length) := by
  induction a using List.reverseRecOn with
  | nil => rfl
  | append_singleton a b ih =>
    rw [List.length_append, List.length_singleton] at h
    have hzeros : zeros (k - a.length) = .zero :: zeros (k - (a.length + 1)) := by
      rw [show k - a.length = k - (a.length + 1) + 1 by omega]; rfl
    rw [hashFold_concat, ih (by omega), Nat.mod_eq_of_lt (by omega), hzeros]
    simp [List.modify_eq_take_drop]

/-- XORing a Bit into one element of each of two sequences XORs both Bits into that element of their XOR. -/
theorem xorBits_modify (a b : Bits) (j : Nat) (x y : Bit) :
    (xorBits a b).modify j (xorBit · (xorBit x y)) = xorBits (a.modify j (xorBit · x)) (b.modify j (xorBit · y)) := by
  induction a generalizing b j with
  | nil => simp [xorBits]
  | cons p a ih =>
    cases b with
    | nil => simp [xorBits]
    | cons q b =>
      cases j with
      | zero => simp [xorBits, xorBit_xorBit_xorBit_comm]
      | succ j => simpa [xorBits] using ih b j

/-- R109 (b): the hash is linear, because one XOR of both sides' next elements is the XOR of the two. -/
theorem hashFold_xorBits (k : Nat) {a b : Bits} (hl : a.length = b.length) :
    hashFold k (xorBits a b) = xorBits (hashFold k a) (hashFold k b) := by
  induction a using List.reverseRecOn generalizing b with
  | nil =>
    obtain rfl : b = [] := List.length_eq_zero_iff.mp hl.symm
    exact (xorBits_zeros k).symm
  | append_singleton a x ih =>
    rcases List.eq_nil_or_concat b with rfl | ⟨b, y, rfl⟩
    · simp at hl
    · have hl' : a.length = b.length := by simpa using hl
      rw [List.concat_eq_append, xorBits_concat hl', hashFold_concat, hashFold_concat, hashFold_concat, ih hl',
        xorBits_length hl', ← hl']
      exact xorBits_modify _ _ _ x y

/-- How many elements of `a` in the residue class of `j` modulo `k` are ONE. -/
def oneCount (k j : Nat) (a : Bits) : Nat :=
  ((List.range a.length).filter fun i => decide (i % k = j) && decide (a[i]? = some .one)).length

theorem oneCount_concat (k j : Nat) (a : Bits) (b : Bit) :
    oneCount k j (a ++ [b]) = oneCount k j a + if a.length % k = j then b.toNat else 0 := by
  have hinit : (List.range a.length).filter (fun i => decide (i % k = j) && decide ((a ++ [b])[i]? = some .one)) =
      (List.range a.length).filter fun i => decide (i % k = j) && decide (a[i]? = some .one) := by
    refine List.filter_congr fun i hi => ?_
    rw [List.getElem?_append_left (List.mem_range.mp hi)]
  rw [oneCount, List.length_append, List.length_singleton, List.range_succ, List.filter_append, hinit,
    List.length_append, oneCount]
  by_cases hj : a.length % k = j <;> cases b <;> simp [hj, Bit.toNat]

/-- XORing one more Bit into a parity. -/
theorem xorBit_parity (n : Nat) (b : Bit) :
    xorBit (Bit.ofBool (decide (n % 2 = 1))) b = Bit.ofBool (decide ((n + b.toNat) % 2 = 1)) := by
  cases b with
  | zero => simp [Bit.toNat]
  | one => rcases Nat.mod_two_eq_zero_or_one n with h | h <;> simp [Bit.toNat, Nat.add_mod, h] <;> rfl

/-- R108: element `j` of the hash is the parity of its residue class. -/
theorem hashFold_getElem? {k j : Nat} (hj : j < k) (a : Bits) :
    (hashFold k a)[j]? = some (Bit.ofBool (decide (oneCount k j a % 2 = 1))) := by
  induction a using List.reverseRecOn with
  | nil => simp [zeros, hj, oneCount, Bit.ofBool]
  | append_singleton a b ih =>
    rw [hashFold_concat, oneCount_concat, List.getElem?_modify, ih]
    split <;> simp [xorBit_parity, *]

/-! ### The obligations -/

/-- Settles O30, element by element. -/
theorem bitXorComputesDifference : Obligations.BitXorComputesDifference := by
  unfold Obligations.BitXorComputesDifference
  intro a b s hl
  exact ⟨decode_encode 0 (.bitXor a b), xorBits a b, if_pos hl, xorBits_length hl, fun _ hj => xorBits_getElem? hl hj⟩

/-- Settles O31: on these operands each of the meanings takes the branch that stops. -/
theorem undefinedOperandsStop : Obligations.UndefinedOperandsStop := by
  unfold Obligations.UndefinedOperandsStop
  refine ⟨fun a b s hl => if_neg hl, fun reg values b s hreg => ?_, fun s => rfl⟩
  have habsent : ¬ toNumber reg < histCount s.cfg := not_lt.mpr hreg
  exact ⟨if_neg habsent, if_neg habsent, if_neg habsent⟩

/-- Settles O32: the meaning of BIT_CMP is the rule's. -/
theorem bitCmpResult : Obligations.BitCmpResult := by
  unfold Obligations.BitCmpResult
  exact fun a b _ => ⟨decode_encode 0 (.bitCmp a b), rfl⟩

/-- Settles O33: the loop of R84 computes the weighted sum. -/
theorem toNumberResult : Obligations.ToNumberResult := by
  unfold Obligations.ToNumberResult
  intro v s
  refine ⟨decode_encode 0 (.toNumber v), ?_, toNumber_lt v⟩
  rw [← toNumber_eq_sum]
  rfl

/-- Settles O34: appending a sequence shifts the value of the one above it. -/
theorem concatResult : Obligations.ConcatResult := by
  unfold Obligations.ConcatResult
  exact fun a b _ => ⟨decode_encode 0 (.concat a b), rfl, toNumber_append a b⟩

/-- Settles O35: SR_READ of a register that is there only gives a result. -/
theorem srReadResult : Obligations.SrReadResult := by
  unfold Obligations.SrReadResult
  exact fun reg _ h => ⟨decode_encode 0 (.srRead reg), exec_srRead_ok h⟩

/-- Settles O36: SR_SHIFT writes one register with its shifted contents. -/
theorem srShiftResult : Obligations.SrShiftResult := by
  unfold Obligations.SrShiftResult
  intro reg b s ⟨_, hs, _⟩ hreg
  have hw := shaped_readHist_length hs (toNumber reg)
  obtain ⟨hread, hframe⟩ := writeHist_giveUop_frame hs hreg (shin (s.readHist (toNumber reg)) b)
  refine ⟨decode_encode 0 (.srShift reg b), _, exec_srShift_ok hreg b, ?width, ?value, hframe⟩
  case width => rw [hread, shin_length, hw]
  case value => rw [hread, toNumber_shin, hw]

/-- Settles O37: SR_SET checks the number of values and writes one register with them. -/
theorem srSetResult : Obligations.SrSetResult := by
  unfold Obligations.SrSetResult
  intro reg values s ⟨_, hs, _⟩ hreg
  exact ⟨decode_encode 0 (.srSet reg values),
    fun hl => ⟨_, exec_srSet_ok hreg hl, writeHist_giveUop_frame hs hreg values⟩,
    fun hl => exec_srSet_badLength hreg hl⟩

/-- Settles O38: in SAg the bank's key has K bits, and its registers are those of PSBHR. -/
theorem bankResults : Obligations.BankResults := by
  unfold Obligations.BankResults
  intro key b s _ hv
  have hkw : s.cfg.bankKeyW = s.cfg.hashW := by simp [Config.bankKeyW, hv]
  refine ⟨decode_encode 0 (.rbRead key), decode_encode 0 (.rbInsert key b), fun hk => ?right, fun hk => ?wrong⟩
  case right =>
    rw [← hkw] at hk
    simp only [exec, execRbRead, execRbInsert, bankReadOp_ok hk, bankInsertOp_ok hk, readHist_sag hv, writeHist_sag hv]
    exact ⟨rfl, rfl⟩
  case wrong =>
    rw [← hkw] at hk ⊢
    simp only [exec, execRbRead, execRbInsert, bankReadOp_error hk, bankInsertOp_error hk]
    exact ⟨rfl, rfl⟩

/-- Settles O40, by the values after one increment and one decrement. -/
theorem counterStepsSaturate : Obligations.CounterStepsSaturate := by
  unfold Obligations.CounterStepsSaturate
  intro c s
  exact ⟨decode_encode 0 (.ctrInc c), decode_encode 0 (.ctrDec c), incCounter c, decCounter c, rfl, rfl,
    incCounter_length c, toNumber_incCounter c, decCounter_length c, toNumber_decCounter c⟩

/-- Settles O41: the upper half is where the leading bit is ONE. -/
theorem counterClassIsUpperHalf : Obligations.CounterClassIsUpperHalf := by
  unfold Obligations.CounterClassIsUpperHalf
  intro c s hc
  have hne : c.length ≠ 0 := by omega
  exact ⟨decode_encode 0 (.ctrPred c), valueClass c, if_neg hne, valueClass_taken_iff c,
    (valueClass_taken_iff c).trans (upper_half_iff_head hc)⟩

/-- Settles O42: the values along a run of steps, against the threshold `2^(S-1)`. -/
theorem saturatingCounterLaws : Obligations.SaturatingCounterLaws := by
  unfold Obligations.SaturatingCounterLaws
  refine ⟨?bounds, ?reach, ?monotone, ?top, ?bottom⟩
  case bounds =>
    intro c os
    have hlen := foldl_stepCounter_length os c
    exact ⟨hlen, Nat.le_sub_one_of_lt (toNumber_lt_of_length hlen)⟩
  case reach =>
    intro c n hn
    have hc := toNumber_lt c
    rw [toNumber_foldl_taken, toNumber_foldl_notTaken]
    omega
  case monotone =>
    intro c d hl hcd
    rw [valueClass_taken_iff, valueClass_taken_iff, hl]
    exact fun hc => hc.trans hcd
  case top =>
    intro c hS hc
    obtain ⟨hdouble, htwo⟩ := two_le_threshold hS
    rw [valueClass_taken_iff, stepCounter_length, stepCounter, toNumber_decCounter]
    omega
  case bottom =>
    intro c hS hc
    obtain ⟨-, htwo⟩ := two_le_threshold hS
    rw [valueClass_notTaken_iff, stepCounter_length, stepCounter, toNumber_incCounter]
    omega

/-- Settles O43: what is left of the register and the inserted Bits is a suffix of the inserted Bits. -/
theorem shiftRegisterKeepsLastBits : Obligations.ShiftRegisterKeepsLastBits := by
  unfold Obligations.ShiftRegisterKeepsLastBits
  intro h bs
  rw [foldl_shin]
  constructor
  · simp
  · intro hle
    rw [List.drop_append, List.drop_eq_nil_of_le hle, List.nil_append]

/-- Settles O44: the key check passes or fails, and nothing else can. -/
theorem cacheReadResult : Obligations.CacheReadResult := by
  unfold Obligations.CacheReadResult
  intro key s
  refine ⟨decode_encode 0 (.cacheRead key), fun hk => ?_, fun hk => ?_⟩
  · rw [exec, execCacheRead, cacheReadOp_ok hk]
    rfl
  · rw [exec, execCacheRead, cacheReadOp_error hk]
    rfl

/-- Settles O45: both operations are CACHE_WRITE, which writes one slot after its two width checks. -/
theorem cacheWriteOverwritesOneSlot : Obligations.CacheWriteOverwritesOneSlot := by
  unfold Obligations.CacheWriteOverwritesOneSlot
  intro key v i s hi
  rw [exec_cacheWrite_or_cacheUpdate hi]
  refine ⟨decode_encode 0 (.cacheWrite key v), decode_encode 0 (.cacheUpdate key v), ?written, ?badKey, ?badBlock⟩
  case written =>
    intro ⟨_, hs, _⟩ hk hv
    rw [cacheWriteOp_ok hk hv]
    exact ⟨_, rfl, writeSlot_giveUop_frame hs _ v⟩
  case badKey =>
    intro hk
    rw [cacheWriteOp_key_error hk]
    rfl
  case badBlock =>
    intro hk hv
    rw [cacheWriteOp_block_error hk hv]
    rfl

/-- Settles O46, by the laws of one read and one write. -/
theorem cacheLaws : Obligations.CacheLaws := by
  unfold Obligations.CacheLaws
  intro w size m j v hm hj hv
  exact ⟨read_write_same hm v, fun k hk => read_write_other w m v hk, wf_write hm hj hv, read_length hm j⟩

/-- Settles O47: above its size a table reads ZEROs, so two that read alike below it read alike everywhere. -/
theorem equalTablesAreEqualData : Obligations.EqualTablesAreEqualData := by
  unfold Obligations.EqualTablesAreEqualData
  intro w size m n hm hn hread
  refine eq_of_wfFrom_of_read_eq hm hn fun j => ?_
  rcases Nat.lt_or_ge j size with hj | hj
  · exact hread j hj
  · rw [read_above hm hj, read_above hn hj]

/-- Settles O48: the two checks in order, then the fold, whose elements are parities. -/
theorem hashXorFoldsAddress : Obligations.HashXorFoldsAddress := by
  unfold Obligations.HashXorFoldsAddress
  intro a s
  refine ⟨decode_encode 0 (.hashXor a), ?folded, ?badMode, ?noWidth⟩
  case folded =>
    intro hm hk
    refine ⟨hashFold s.cfg.hashW a, ?_, hashFold_length _ a, fun j hj => hashFold_getElem? hj a⟩
    rw [exec, execHashXor, hashOp_ok hm hk]
    rfl
  case badMode =>
    intro hm
    rw [exec, execHashXor, hashOp_mode_error hm]
    rfl
  case noWidth =>
    intro hm hk
    rw [exec, execHashXor, hashOp_width_error hm hk]
    rfl

/-- Settles O49: a K-bit value is its own hash, and stays the hash of the value with ZEROs appended. -/
theorem hashLaws : Obligations.HashLaws := by
  unfold Obligations.HashLaws
  intro k _
  have hself (a : Bits) (ha : a.length = k) : hashFold k a = a := by
    rw [hashFold_of_length_le ha.le, ha, Nat.sub_self]
    exact List.append_nil a
  refine ⟨fun a b hl => hashFold_xorBits k hl, fun n h hn hh => ?_, hself⟩
  refine ⟨h ++ zeros (n - k), ?_, ?_⟩
  · rw [List.length_append, zeros_length]; omega
  · rw [hashFold_append_zeros, hself h hh]

end Sys2Proof.Machine

/-! PROOFS of the statements of spec/41_predictors.md: PREDICT and UPDATE in the three variants. What a command does in a
constructed engine is said once, by the key of its slot and the number of its register; a variant then only names the two. -/

namespace Sys2Proof.Machine

/-! ### The command words of PREDICT and UPDATE (R61, R63) -/

theorem decode_predictWord (x : Bool) (a : Bits) : decode (.command (cmdWord 0b00#2 x) a) = .ok (.predict a) :=
  decode_op_predict (by cases x <;> rfl) a

theorem decode_updateWord (o : BranchResult) (a : Bits) :
    decode (.command (cmdWord 0b01#2 (decide (o = .taken))) a) = .ok (.update a o) := by
  cases o <;> rfl

/-! ### The slot and the register of an address, by variant -/

theorem slotKey_gag {s : State} (h : s.cfg.variant = .gag) (a : Bits) : s.slotKey a = s.bhr := by
  simp [State.slotKey, h]

theorem slotKey_gas {s : State} (h : s.cfg.variant = .gas) (a : Bits) :
    s.slotKey a = hashFold s.cfg.hashW a ++ s.bhr := by
  simp [State.slotKey, h]

theorem setNumber_sag {s : State} (h : s.cfg.variant = .sag) (a : Bits) :
    s.setNumber a = toNumber (hashFold s.cfg.hashW a) := by
  simp [State.setNumber, h]

theorem setNumber_of_ne_sag {s : State} (h : s.cfg.variant ≠ .sag) (a : Bits) : s.setNumber a = 0 := by
  cases hx : s.cfg.variant <;> simp_all [State.setNumber]

/-- R126: the history of the set is the whole key. -/
theorem slotKey_sag {s : State} (h : s.cfg.variant = .sag) (a : Bits) : s.slotKey a = s.readHist (s.setNumber a) := by
  rw [setNumber_sag h, readHist_sag h]
  simp [State.slotKey, h]

@[simp] theorem setNumber_writeSlot (s : State) (j : Nat) (v a : Bits) :
    (s.writeSlot j v).setNumber a = s.setNumber a := by
  simp [State.setNumber]

/-- R123: the value of `hash(a) ++ BHR`, the hash in the high part. -/
theorem toNumber_slotKey_gas {s : State} (h : s.cfg.variant = .gas) (hs : s.Shaped) (a : Bits) :
    toNumber (s.slotKey a) = toNumber (hashFold s.cfg.hashW a) * 2 ^ s.cfg.histW + toNumber s.bhr := by
  have hb : s.bhr.length = s.cfg.histW := by simpa [readHist_gas h] using shaped_readHist_length hs 0
  rw [slotKey_gas h, toNumber_append, hb]

/-! ### The two writes of UPDATE -/

/-- STEP and WRITE of R130: the counter at the slot of address `a` stepped toward `o`. -/
def State.stepSlot (s : State) (a : Bits) (o : BranchResult) : State :=
  s.writeSlot (toNumber (s.slotKey a)) (stepCounter (s.readSlot (toNumber (s.slotKey a))) o)

/-- SHIFT of R130: `b` shifted into the history register of address `a`. -/
def State.shiftSet (s : State) (a : Bits) (b : Bit) : State :=
  s.writeHist (s.setNumber a) (shin (s.readHist (s.setNumber a)) b)

@[simp] theorem stepSlot_cfg (s : State) (a : Bits) (o : BranchResult) : (s.stepSlot a o).cfg = s.cfg := writeSlot_cfg ..

theorem stepSlot_gag {s : State} (h : s.cfg.variant = .gag) (a : Bits) (o : BranchResult) :
    s.stepSlot a o = { s with
      pht := Memory.write s.cfg.ctrW s.pht (toNumber s.bhr)
        (stepCounter (Memory.read s.cfg.ctrW s.pht (toNumber s.bhr)) o) } := by
  rw [State.stepSlot, State.writeSlot, State.readSlot, setTable_gag h, table_gag h, slotKey_gag h]

theorem stepSlot_gas {s : State} (h : s.cfg.variant = .gas) (hs : s.Shaped) (a : Bits) (o : BranchResult) :
    s.stepSlot a o = { s with
      pspht := Memory.write s.cfg.ctrW s.pspht (toNumber (hashFold s.cfg.hashW a) * 2 ^ s.cfg.histW + toNumber s.bhr)
        (stepCounter (Memory.read s.cfg.ctrW s.pspht
          (toNumber (hashFold s.cfg.hashW a) * 2 ^ s.cfg.histW + toNumber s.bhr)) o) } := by
  rw [State.stepSlot, State.writeSlot, State.readSlot, setTable_gas h, table_gas h, toNumber_slotKey_gas h hs]

theorem stepSlot_sag {s : State} (h : s.cfg.variant = .sag) (a : Bits) (o : BranchResult) :
    s.stepSlot a o = { s with
      pht := Memory.write s.cfg.ctrW s.pht (toNumber (s.readHist (s.setNumber a)))
        (stepCounter (Memory.read s.cfg.ctrW s.pht (toNumber (s.readHist (s.setNumber a)))) o) } := by
  rw [State.stepSlot, State.writeSlot, State.readSlot, setTable_sag h, table_sag h, slotKey_sag h]

/-- R125: the shift is global, whatever the address. -/
theorem shiftSet_of_ne_sag {s : State} (h : s.cfg.variant ≠ .sag) (a : Bits) (b : Bit) :
    s.shiftSet a b = { s with bhr := shin s.bhr b } := by
  rw [State.shiftSet, writeHist_of_ne_sag h, readHist_of_ne_sag h]

/-- R127: only the set's own register shifts. -/
theorem shiftSet_sag {s : State} (h : s.cfg.variant = .sag) (a : Bits) (b : Bit) :
    s.shiftSet a b = { s with
      psbhr := Memory.write s.cfg.histW s.psbhr (toNumber (hashFold s.cfg.hashW a))
        (shin (Memory.read s.cfg.histW s.psbhr (toNumber (hashFold s.cfg.hashW a))) b) } := by
  rw [State.shiftSet, setNumber_sag h, writeHist_sag h, readHist_sag h]

/-! ### PREDICT and UPDATE, in every variant -/

theorem exec_predict_badLength {s : State} {a : Bits} (ha : a.length ≠ s.cfg.addrW) :
    exec (.predict a) s = .next { s with resp := some 0b010#3, mon := none } := by
  simp [exec, execPredict_badLength ha, State.raiseError]

theorem exec_update_badLength {s : State} {a : Bits} (ha : a.length ≠ s.cfg.addrW) (o : BranchResult) :
    exec (.update a o) s = .next { s with resp := some 0b010#3, mon := none } := by
  simp [exec, execUpdate_badLength ha, State.raiseError]

/-- R121, R124, R126: the prediction is the upper-half test of the counter at the address's slot. -/
theorem exec_predict_ok {s : State} (hi : s.Inv) {a : Bits} (ha : a.length = s.cfg.addrW) :
    exec (.predict a) s = .next { s with
      resp := some (0b00#2 ++ BitVec.ofBool (decide (2 ^ (s.cfg.ctrW - 1) ≤
        toNumber (s.readSlot (toNumber (s.slotKey a)))))), mon := none } := by
  have ⟨_, hs, _⟩ := hi
  rw [exec, execPredict_eq hi ha, State.answer, respond_class, shaped_readSlot_length hs]

/-- R122, R125, R127: UPDATE steps the counter of the address and then shifts the outcome into the address's register. -/
theorem exec_update_ok {s : State} (hi : s.Inv) {a : Bits} (ha : a.length = s.cfg.addrW) (o : BranchResult) :
    exec (.update a o) s = .next (((s.stepSlot a o).shiftSet a (outcomeBit o)).answer .zero) := by
  rw [exec, execUpdate_eq hi ha, State.shiftSet, State.stepSlot, setNumber_writeSlot, readHist_writeSlot]

/-- R65: the ERR field of a command that completed is `00`, whatever it predicts. -/
theorem respErr_respond_noError (p : Bit) : respErr (respond p noError) = 0b00#2 := by cases p <;> rfl

/-- PREDICT gives the state before with another answer, in every state. -/
theorem exec_predict_setAnswer (a : Bits) (s : State) : ∃ r, exec (.predict a) s = .next (s.setAnswer r none) := by
  rcases execPredict_cases a s with ⟨o, h⟩ | ⟨e, h, -⟩ <;> exact ⟨_, h⟩

/-- R46: PREDICT and MONITOR only read the engine. -/
theorem exec_predict_or_monitor {i : Instr} (h : (∃ a, i = .predict a) ∨ i = .monitor) (s : State) :
    ∃ r m, exec i s = .next (s.setAnswer r m) := by
  rcases h with ⟨a, rfl⟩ | rfl
  · obtain ⟨r, hr⟩ := exec_predict_setAnswer a s
    exact ⟨r, none, hr⟩
  · exact ⟨_, _, rfl⟩

theorem sameEngine_setAnswer (s : State) (r : Option (BitVec 3)) (m : Option Snapshot) : s.SameEngine (s.setAnswer r m) :=
  ⟨rfl, rfl, rfl, rfl, rfl⟩

/-! ### Runs of reading commands (R128) -/

/-- Reading commands before a PREDICT do not show in its answer: the run ends in the state that PREDICT alone gives. -/
theorem run_reads_then_predict {a : Bits} {t : State} {p : Request} (hp : decode p = .ok (.predict a))
    (rs : List Request) (hrs : ∀ r ∈ rs, (∃ b, decode r = .ok (.predict b)) ∨ decode r = .ok .monitor)
    {s : State} (ht : exec (.predict a) s = .next t) :
    Host.Core.run core (rs.length + 1) (s.setPending (rs ++ [p])) = .next (t.setPending []) := by
  induction rs generalizing s with
  | nil =>
    have hstep : step (s.setPending [p]) = .next (t.setPending []) := by
      rw [step_setPending_of_decode hp, ht, mapNext]
    exact run_succ_of_step 0 hstep
  | cons q rs ih =>
    obtain ⟨i, hd, hread⟩ : ∃ i, decode q = .ok i ∧ ((∃ b, i = .predict b) ∨ i = .monitor) := by
      rcases hrs q List.mem_cons_self with ⟨b, hb⟩ | hm
      · exact ⟨_, hb, .inl ⟨b, rfl⟩⟩
      · exact ⟨_, hm, .inr rfl⟩
    obtain ⟨r, m, hi⟩ := exec_predict_or_monitor hread s
    have hstep : step (s.setPending (q :: (rs ++ [p]))) = .next ((s.setAnswer r m).setPending (rs ++ [p])) := by
      rw [step_setPending_of_decode hd, hi, mapNext]
    have ht' : exec (.predict a) (s.setAnswer r m) = .next t := (execPredict_setAnswer a s r m).trans ht
    exact (run_succ_of_step _ hstep).trans (ih (fun q' hq' => hrs q' (List.mem_cons_of_mem _ hq')) ht')

/-! ### The phases of UPDATE as micro-operations (R130) -/

theorem writeSlot_giveUop (s : State) (u : UopResult) (j : Nat) (v : Bits) :
    (s.giveUop u).writeSlot j v = (s.writeSlot j v).giveUop u := by
  cases hx : s.cfg.variant <;> simp [State.writeSlot, State.setTable, State.table, State.giveUop, hx]

theorem shiftSet_giveUop (s : State) (u : UopResult) (a : Bits) (b : Bit) :
    (s.giveUop u).shiftSet a b = (s.shiftSet a b).giveUop u := by
  cases hx : s.cfg.variant <;> simp [State.shiftSet, State.writeHist, State.giveUop, State.setNumber, State.readHist, hx]

theorem exec_cacheRead_ok {s : State} {k : Bits} (h : k.length = s.cfg.tableKeyW) :
    exec (.cacheRead k) s = .next (s.giveUop (.bits (s.readSlot (toNumber k)))) := by
  rw [exec, execCacheRead, cacheReadOp_ok h, finishRead_ok]

/-- WRITE: the stepped counter goes to its own slot, and the result before it is lost. -/
theorem exec_cacheWrite_stepped {s : State} (hs : s.Shaped) (a : Bits) (o : BranchResult) (u : UopResult) :
    exec (.cacheWrite (s.slotKey a) (stepCounter (s.readSlot (toNumber (s.slotKey a))) o)) (s.giveUop u) =
      .next ((s.stepSlot a o).giveUop .done) := by
  have hkey : (s.slotKey a).length = (s.giveUop u).cfg.tableKeyW := slotKey_length hs a
  have hblock : (stepCounter (s.readSlot (toNumber (s.slotKey a))) o).length = (s.giveUop u).cfg.ctrW := by
    rw [stepCounter_length, shaped_readSlot_length hs, giveUop_cfg]
  rw [exec, execCacheWrite, cacheWriteOp_ok hkey hblock, finishWrite_ok, writeSlot_giveUop]
  rfl

/-- SHIFT in GAg and GAs: register 0 is the one that UPDATE of any address shifts. -/
theorem exec_srShift_bhr {s : State} (h : s.cfg.variant ≠ .sag) (a : Bits) (b : Bit) :
    exec (.srShift [] b) s = .next ((s.shiftSet a b).giveUop .done) := by
  rw [State.shiftSet, setNumber_of_ne_sag h]
  exact exec_srShift_ok (Nat.two_pow_pos _) b

/-- SHIFT in SAg: the hash of the address is the key of the register that its UPDATE shifts. -/
theorem exec_rbInsert_set {s : State} (h : s.cfg.variant = .sag) (a : Bits) (b : Bit) :
    exec (.rbInsert (hashFold s.cfg.hashW a) b) s = .next ((s.shiftSet a b).giveUop .done) := by
  have hk : (hashFold s.cfg.hashW a).length = s.cfg.bankKeyW := by simp [Config.bankKeyW, h]
  rw [exec, execRbInsert, bankInsertOp_ok hk, finishWrite_ok, State.shiftSet, setNumber_sag h]

/-! ### The obligations

In a namespace of their own, since `predictGAg` to `updateSAg` name the model's definitions. -/

namespace Predictors

/-- Settles O11: the slot of every address is the one at BHR. -/
theorem predictGAg : Obligations.PredictGAg := by
  unfold Obligations.PredictGAg
  intro a s hv
  refine ⟨fun x => decode_predictWord x a, exec_predict_badLength, fun hi ha => ?_⟩
  rw [exec_predict_ok hi ha, State.readSlot, table_gag hv, slotKey_gag hv]

/-- Settles O13: the slot of an address has the number `val(hash(a)) * 2^B + val(BHR)`. -/
theorem predictGAs : Obligations.PredictGAs := by
  unfold Obligations.PredictGAs
  intro a s hv
  refine ⟨fun x => decode_predictWord x a, exec_predict_badLength, fun hi ha => ?_⟩
  have ⟨_, hs, _⟩ := hi
  rw [exec_predict_ok hi ha, State.readSlot, table_gas hv, toNumber_slotKey_gas hv hs]

/-- Settles O15: the slot of an address is the one at its set's history. -/
theorem predictSAg : Obligations.PredictSAg := by
  unfold Obligations.PredictSAg
  intro a s hv
  refine ⟨fun x => decode_predictWord x a, exec_predict_badLength, fun hi ha => ?_⟩
  rw [exec_predict_ok hi ha, State.readSlot, table_sag hv, slotKey_sag hv, readHist_sag hv, setNumber_sag hv]

/-- Settles O12: UPDATE writes the slot at the old BHR, and BHR. -/
theorem updateGAg : Obligations.UpdateGAg := by
  unfold Obligations.UpdateGAg
  intro a o s hv
  refine ⟨decode_updateWord o a, fun ha => exec_update_badLength ha o, fun hi ha => ?_⟩
  simp [exec_update_ok hi ha, stepSlot_gag hv, shiftSet_of_ne_sag, State.answer, hv]

/-- Settles O14: UPDATE writes the slot `val(hash(a)) * 2^B + val(BHR)`, and BHR whatever the address. -/
theorem updateGAs : Obligations.UpdateGAs := by
  unfold Obligations.UpdateGAs
  intro a o s hv
  refine ⟨decode_updateWord o a, fun ha => exec_update_badLength ha o, fun hi ha => ?_⟩
  have ⟨_, hs, _⟩ := hi
  simp [exec_update_ok hi ha, stepSlot_gas hv hs, shiftSet_of_ne_sag, State.answer, hv]

/-- Settles O16: UPDATE writes the slot at the set's history, and the register of the set. -/
theorem updateSAg : Obligations.UpdateSAg := by
  unfold Obligations.UpdateSAg
  intro a o s hv
  refine ⟨decode_updateWord o a, fun ha => exec_update_badLength ha o, fun hi ha => ?_⟩
  simp [exec_update_ok hi ha, stepSlot_sag hv, setNumber_sag, readHist_sag, shiftSet_sag, State.answer, hv]

/-- Settles O18: the answer of the PREDICT before is not read by UPDATE, and the state after UPDATE is again one of a
constructed engine, so that the PREDICT after it answers by its own slot. -/
theorem updateStepsThePredictedSlot : Obligations.UpdateStepsThePredictedSlot := by
  unfold Obligations.UpdateStepsThePredictedSlot
  intro a o s hi ha
  obtain ⟨u, hu, hslot, hothers, -⟩ := updateFrame a o s hi ha
  have hiu : u.Inv := exec_keeps_inv hi hu
  have hau : a.length = u.cfg.addrW := by rw [exec_cfg hu, ha]
  exact ⟨_, u, _, execPredict_eq hi ha, (execUpdate_setAnswer a o s _ none).trans hu, execPredict_eq hiu hau, rfl, hslot,
    hothers, rfl⟩

/-- Settles O19: PREDICT and MONITOR replace the last answer only, and PREDICT does not read it. -/
theorem predictIsPureAndIdempotent : Obligations.PredictIsPureAndIdempotent := by
  unfold Obligations.PredictIsPureAndIdempotent
  intro a s
  obtain ⟨r, hr⟩ := exec_predict_setAnswer a s
  refine ⟨_, hr, sameEngine_setAnswer s r none, rfl, rfl, ?again, ?monitor⟩
  case again => exact (execPredict_setAnswer a s r none).trans hr
  case monitor =>
    intro m hm
    cases hm
    exact (execPredict_setAnswer a s _ _).trans hr

/-- Settles O20: every command before the second PREDICT only reads, so it answers as it would as the first command. -/
theorem predictsBetweenWritesAgree : Obligations.PredictsBetweenWritesAgree := by
  unfold Obligations.PredictsBetweenWritesAgree
  intro a x y rs s hrs
  obtain ⟨r, ht⟩ := exec_predict_setAnswer a s
  have hfirst : step (s.setPending (.command (cmdWord 0b00#2 x) a :: (rs ++ [.command (cmdWord 0b00#2 y) a]))) =
      .next ((s.setAnswer r none).setPending (rs ++ [.command (cmdWord 0b00#2 y) a])) := by
    rw [step_setPending_of_decode (decode_predictWord x a), ht, mapNext]
  have hreads : ∀ q ∈ .command (cmdWord 0b00#2 x) a :: rs,
      (∃ b, decode q = .ok (.predict b)) ∨ decode q = .ok .monitor :=
    List.forall_mem_cons.mpr ⟨.inl ⟨a, decode_predictWord x a⟩, hrs⟩
  exact ⟨_, _, run_succ_of_step 0 hfirst, run_reads_then_predict (decode_predictWord y a) _ hreads ht, rfl,
    sameEngine_setAnswer s r none, sameEngine_setAnswer s r none⟩

/-- Settles O21: keys of one width agree in value iff they agree, and GAg's key holds no Bit of the address. -/
theorem aliasingFollowsTheHash : Obligations.AliasingFollowsTheHash := by
  unfold Obligations.AliasingFollowsTheHash
  intro a b o s hi ha hb
  have ⟨_, hs, _⟩ := hi
  have hslot : toNumber (s.slotKey a) = toNumber (s.slotKey b) ↔ s.slotKey a = s.slotKey b :=
    toNumber_eq_iff ((slotKey_length hs a).trans (slotKey_length hs b).symm)
  refine ⟨?gas, ?sag, ?gag⟩
  case gas =>
    intro hv
    rw [hslot, slotKey_gas hv, slotKey_gas hv, List.append_left_inj]
  case sag =>
    intro hv
    constructor
    · rw [setNumber_sag hv, setNumber_sag hv, toNumber_eq_iff (by simp)]
    · rw [hslot, slotKey_sag hv, slotKey_sag hv]
  case gag =>
    intro hv
    constructor
    · rw [exec_predict_ok hi ha, exec_predict_ok hi hb, slotKey_gag hv, slotKey_gag hv]
    · simp [exec_update_ok hi ha, exec_update_ok hi hb, stepSlot_gag, shiftSet_of_ne_sag, hv]

/-- Settles O29: each of the four commands ends in an answer. -/
theorem onlyTheAddressCheckFails : Obligations.OnlyTheAddressCheckFails := by
  unfold Obligations.OnlyTheAddressCheckFails
  intro i s hi hc hw
  rcases (isCommand_iff i).mp hc with ⟨a, rfl⟩ | ⟨a, o, rfl⟩ | rfl | rfl
  · exact ⟨_, _, execPredict_eq hi (eq_of_beq hw), rfl, respErr_respond_noError _⟩
  · exact ⟨_, _, execUpdate_eq hi (eq_of_beq hw) o, rfl, respErr_respond_noError _⟩
  · exact ⟨_, _, rfl, rfl, respErr_respond_noError _⟩
  · exact ⟨_, _, rfl, rfl, respErr_respond_noError _⟩

/-- Settles O53: the phases write the slot and the register that UPDATE writes, with the same values. -/
theorem updateIsItsMicroOps : Obligations.UpdateIsItsMicroOps := by
  unfold Obligations.UpdateIsItsMicroOps
  intro a o s hi ha
  have ⟨_, hs, _⟩ := hi
  have hcfg : ((s.stepSlot a o).giveUop .done).cfg = s.cfg := stepSlot_cfg s a o
  refine ⟨_, _, _, s.giveUop (.bits (stepCounter (s.readSlot (toNumber (s.slotKey a))) o)),
    (s.stepSlot a o).giveUop .done, (((s.stepSlot a o).giveUop .done).shiftSet a (outcomeBit o)).giveUop .done, _,
    exec_cacheRead_ok (slotKey_length hs a), rfl, ?step, rfl, ?write, ?shift, exec_update_ok hi ha o, ?same⟩
  case step => cases o <;> rfl
  case write => exact exec_cacheWrite_stepped hs a o _
  case shift =>
    rw [← hcfg]
    cases hv : ((s.stepSlot a o).giveUop .done).cfg.variant
    case gag => exact exec_srShift_bhr (by rw [hv]; decide) a _
    case gas => exact exec_srShift_bhr (by rw [hv]; decide) a _
    case sag => exact exec_rbInsert_set hv a _
  case same => rw [shiftSet_giveUop]; exact ⟨rfl, rfl, rfl, rfl, rfl⟩

end Predictors

end Sys2Proof.Machine

/-! PROOFS of the statements of spec/42_control.md: one step serves one request, every command completes, and what MONITOR shows
and RESET clears. -/

namespace Sys2Proof.Machine

/-! ### Serving commands (R144) -/

/-- A command completes in every state; it stops neither with a fault nor with a refusal. -/
theorem exec_command_completes {i : Instr} (hc : i.isCommand = true) (s : State) : ∃ t, exec i s = .next t := by
  rcases (isCommand_iff i).mp hc with ⟨a, rfl⟩ | ⟨a, o, rfl⟩ | rfl | rfl
  · rcases execPredict_cases a s with ⟨o, h⟩ | ⟨e, h, -⟩ <;> exact ⟨_, h⟩
  · rcases execUpdate_cases a o s with ⟨s', h, -⟩ | ⟨e, h, -⟩ <;> exact ⟨_, h⟩
  · exact ⟨_, rfl⟩
  · exact ⟨_, rfl⟩

/-- R67, R68: a request at the ports always selects a command. -/
theorem decode_command_request {r : Request} (h : r.isCommand = true) : ∃ i, decode r = .ok i ∧ i.isCommand = true := by
  cases r with
  | command cmd a => exact ⟨decodeCommand cmd a, rfl, noCommandIssuesMicroOp (.command cmd a) _ rfl⟩
  | micro u ops => cases h

/-- R159: with nothing issued the engine waits. -/
theorem step_of_pending_nil {s : State} (h : s.pending = []) : step s = .next s := by
  simp only [step, h]

theorem step_eq_exec {s : State} {r : Request} {rest : List Request} {i : Instr} (hp : s.pending = r :: rest)
    (hd : decode r = .ok i) : step s = exec i { s with pending := rest } := by
  simp only [step, hp, hd]

/-- A step leaves exactly the requests behind the one it serves. -/
theorem step_pending {s t : State} {r : Request} {rest : List Request} (hp : s.pending = r :: rest)
    (h : step s = .next t) : t.pending = rest := by
  have hs : s = s.setPending (r :: rest) := by rw [← hp]; rfl
  rw [hs] at h
  obtain ⟨u, rfl, -⟩ := step_setPending_cons h
  rfl

/-! ### The snapshot (R66, R140) -/

theorem snapshot_history_of_ne_sag {s : State} (h : s.cfg.variant ≠ .sag) : s.snapshot.history = [s.bhr] := by
  cases hv : s.cfg.variant <;> simp_all [State.snapshot]

theorem snapshot_history_sag {s : State} (h : s.cfg.variant = .sag) :
    s.snapshot.history = Memory.entries s.cfg.histW (2 ^ s.cfg.hashW) s.psbhr := by
  simp [State.snapshot, h]

/-! ### The cleared storage (R141) -/

theorem clear_bhr_of_ne_sag {s : State} (h : s.cfg.variant ≠ .sag) : s.clear.bhr = zeros s.cfg.histW := by
  cases hv : s.cfg.variant <;> simp_all [State.clear]

theorem clear_psbhr_sag {s : State} (h : s.cfg.variant = .sag) : s.clear.psbhr = [] := by
  simp [State.clear, h]

/-- The variant's table lists nothing after a clear. -/
@[simp] theorem clear_table (s : State) : s.clear.table = [] := by
  cases hv : s.cfg.variant <;> simp [State.table, State.clear, hv]

@[simp] theorem clear_readSlot (s : State) (j : Nat) : s.clear.readSlot j = zeros s.cfg.ctrW := by
  simp [State.readSlot]

/-! ### The obligations -/

/-- Settles O8: executing an operation neither reads nor writes the queue, so what stands behind the request is left. -/
theorem stepServesRequestsInOrder : Obligations.StepServesRequestsInOrder := by
  unfold Obligations.StepServesRequestsInOrder
  exact fun _ _ _ _ hp h => step_pending hp h

/-- Settles O9: with nothing pending the step waits; else the oldest request selects a command, which completes. -/
theorem commandsAlwaysComplete : Obligations.CommandsAlwaysComplete := by
  unfold Obligations.CommandsAlwaysComplete
  intro s hs
  cases hp : s.pending with
  | nil => exact ⟨s, step_of_pending_nil hp, hs⟩
  | cons r rest =>
    have hr : r.isCommand = true := hs r (by simp [hp])
    obtain ⟨i, hd, hc⟩ := decode_command_request hr
    obtain ⟨t, ht⟩ := exec_command_completes hc { s with pending := rest }
    have hstep : step s = .next t := (step_eq_exec hp hd).trans ht
    refine ⟨t, hstep, fun q hq => hs q ?_⟩
    rw [step_pending hp hstep] at hq
    simp [hp, hq]

/-- Settles O22: MONITOR gives the state before with another answer, and its snapshot lists every register and slot in order. -/
theorem monitorShowsAllState : Obligations.MonitorShowsAllState := by
  unfold Obligations.MonitorShowsAllState
  intro s
  refine ⟨fun x a => decode_op_monitor (by cases x <;> rfl) a, s.snapshot, rfl, ?code, rfl, rfl, rfl, rfl, rfl,
    snapshot_history_of_ne_sag, ?registers, entries_length _ _ _, fun _ hj => entries_get _ hj⟩
  case code =>
    change variantCode s.cfg.variant = _
    cases s.cfg.variant <;> rfl
  case registers =>
    intro hv
    rw [snapshot_history_sag hv]
    exact ⟨entries_length _ _ _, fun _ hk => entries_get _ hk⟩

/-- Settles O23: RESET answers `000` from the cleared state, whose history and table read ZERO everywhere. -/
theorem resetClearsAllState : Obligations.ResetClearsAllState := by
  unfold Obligations.ResetClearsAllState
  intro s
  refine ⟨fun x a => decode_op_reset (by cases x <;> rfl) a, s.clear.answer .zero, rfl, clear_bhr_of_ne_sag, ?registers,
    clear_readSlot s, rfl, rfl, clear_cfg s, clear_pending s, clear_uop s⟩
  intro hv k
  rw [answer_psbhr, clear_psbhr_sag hv, read_nil]

/-- Settles O6: a step with a request pending is the execution of what it decodes to. -/
theorem stepRunsDecoded : Obligations.StepRunsDecoded := by
  unfold Obligations.StepRunsDecoded
  exact fun _ _ _ _ hp hd => step_eq_exec hp hd

end Sys2Proof.Machine

/-! PROOFS of the statements of spec/60_exceptions.md: what an erroneous command leaves, that InvalidIndex cannot occur, the checks
of construction in their order, and when a step waits or refuses. -/

namespace Sys2Proof.Machine

/-! ### The ERR field of an answer (R65, R151) -/

@[simp] theorem respErr_respond (p : Bit) (err : BitVec 2) : respErr (respond p err) = err := by
  revert err
  cases p <;> decide

/-- R151: the code `10` is InvalidIndex's alone. -/
theorem code_ne_of_ne_invalidIndex {e : EngineError} (h : ∀ n, e ≠ .invalidIndex n) : e.code ≠ 0b10#2 := by
  cases e with
  | lengthMismatch g w => exact (by decide : (0b01#2 : BitVec 2) ≠ 0b10#2)
  | invalidIndex n => exact absurd rfl (h n)
  | unsupportedHashMode m => exact (by decide : (0b11#2 : BitVec 2) ≠ 0b10#2)

/-- R150, R155: a command answers `00`, or it has taken an error, whose code it answers, in the state before. -/
theorem exec_command_response {i : Instr} {s t : State} {r : BitVec 3} (hc : i.isCommand = true)
    (h : exec i s = .next t) (hr : t.resp = some r) :
    respErr r = 0b00#2 ∨ ∃ e, t = s.raiseError e ∧ r = respond .zero e.code ∧ ∀ n, e ≠ .invalidIndex n := by
  rcases exec_command_cases hc h with ⟨s', p, m, rfl, -⟩ | ⟨e, rfl, he⟩ <;> cases hr
  · exact .inl (respErr_respond_noError p)
  · exact .inr ⟨e, rfl, rfl, he⟩

/-! ### The checks of construction (R158) -/

theorem variantOfCode_three : variantOfCode 0b11#2 = none := rfl

theorem variantOfCode_variantCode (v : Variant) : variantOfCode (variantCode v) = some v := by cases v <;> rfl

/-- R73: every other code is that of a variant. -/
theorem eq_variantCode_of_ne_three {c : BitVec 2} (h : c ≠ 0b11#2) : ∃ v, c = variantCode v := by
  rcases op_cases c with rfl | rfl | rfl | rfl
  · exact ⟨.gag, rfl⟩
  · exact ⟨.gas, rfl⟩
  · exact ⟨.sag, rfl⟩
  · exact absurd rfl h

/-- R73: the codes `01` and `10` are those of the variants with a hash. -/
theorem eq_variantCode_of_hashed {c : BitVec 2} (h : c = 0b01#2 ∨ c = 0b10#2) : ∃ v, c = variantCode v ∧ v ≠ .gag := by
  rcases h with rfl | rfl
  · exact ⟨.gas, rfl, by decide⟩
  · exact ⟨.sag, rfl, by decide⟩

theorem checkWidths_error {r : CfgRecord} (h : r.histW = 0 ∨ r.ctrW = 0 ∨ r.addrW = 0) :
    ∃ g w, checkWidths r = .error (.lengthMismatch g w) := by
  unfold checkWidths
  split
  · exact ⟨_, _, rfl⟩
  · split
    · exact ⟨_, _, rfl⟩
    · rw [if_pos (by omega)]
      exact ⟨_, _, rfl⟩

theorem checkWidths_ok {r : CfgRecord} (hh : 1 ≤ r.histW) (hc : 1 ≤ r.ctrW) (ha : 1 ≤ r.addrW) :
    checkWidths r = .ok () := by
  rw [checkWidths, if_neg (by omega), if_neg (by omega), if_neg (by omega)]

theorem checkHash_of_ne_gag {v : Variant} (h : v ≠ .gag) (r : CfgRecord) : checkHash v r = checkHash.checkHashFields r := by
  cases v
  · exact absurd rfl h
  · rfl
  · rfl

theorem checkHash_width_error {v : Variant} {r : CfgRecord} (hv : v ≠ .gag) (h : r.hashW = 0 ∨ r.addrW < r.hashW) :
    checkHash v r = .error (.lengthMismatch r.hashW r.addrW) := by
  rw [checkHash_of_ne_gag hv, checkHash.checkHashFields, if_pos h]

theorem checkHash_mode_error {v : Variant} {r : CfgRecord} (hv : v ≠ .gag) (hk : 1 ≤ r.hashW) (hn : r.hashW ≤ r.addrW)
    (hm : r.hashMode ≠ 0b00#2) : checkHash v r = .error (.unsupportedHashMode r.hashMode) := by
  rw [checkHash_of_ne_gag hv, checkHash.checkHashFields, if_neg (by omega), if_pos hm]

/-- A record that satisfies what R6 asks of K and HASH_MODE passes checks 3 and 4, whether or not its variant makes them. -/
theorem checkHash_ok {v : Variant} {r : CfgRecord}
    (h : v ≠ .gag → (1 ≤ r.hashW ∧ r.hashW ≤ r.addrW) ∧ r.hashMode = 0b00#2) : checkHash v r = .ok () := by
  by_cases hv : v = .gag
  · rw [hv]
    rfl
  · obtain ⟨⟨hk, hn⟩, hm⟩ := h hv
    rw [checkHash_of_ne_gag hv, checkHash.checkHashFields, if_neg (by omega), if_neg (not_not.mpr hm)]

/-! ### Construction, by the first check that fails (R158) -/

theorem construct_notAnEngine {r : CfgRecord} (h : r.variant = 0b11#2) : construct r = .refused .notAnEngine := by
  simp only [construct, h, variantOfCode_three]

theorem construct_widths_error {r : CfgRecord} {v : Variant} {e : EngineError} (hv : r.variant = variantCode v)
    (hw : checkWidths r = .error e) : construct r = .refused (.badConfiguration e) := by
  simp only [construct, hv, variantOfCode_variantCode, hw]

theorem construct_hash_error {r : CfgRecord} {v : Variant} {e : EngineError} (hv : r.variant = variantCode v)
    (hw : checkWidths r = .ok ()) (hh : checkHash v r = .error e) : construct r = .refused (.badConfiguration e) := by
  simp only [construct, hv, variantOfCode_variantCode, hw, hh]

/-- R170: a legal configuration yields its own initial state. -/
theorem construct_configRecord {cfg : Config} (h : cfg.Legal) : construct (configRecord cfg) = .next (State.init cfg) := by
  obtain ⟨hb, hs, hn, hhash⟩ := h
  have hv : variantOfCode (configRecord cfg).variant = some cfg.variant := variantOfCode_variantCode _
  have hw : checkWidths (configRecord cfg) = .ok () := checkWidths_ok hb hs hn
  have hh : checkHash cfg.variant (configRecord cfg) = .ok () := checkHash_ok hhash
  simp only [construct, hv, hw, hh]
  rfl

/-! ### Refusing a request (log 3) -/

theorem step_refused_of_decode_error {s : State} {r : Request} {rest : List Request} {u : BitVec 4}
    (hp : s.pending = r :: rest) (hd : decode r = .error (.operandShape u)) : step s = .refused (.operandShape u) := by
  simp only [step, hp, hd]

/-! ### The obligations -/

/-- Settles O26: taking an error replaces the last answer only, and no command reads it. -/
theorem errorsWriteNothing : Obligations.ErrorsWriteNothing := by
  unfold Obligations.ErrorsWriteNothing
  intro i s t r hc h hr herr
  rcases exec_command_response hc h hr with h0 | ⟨e, rfl, rfl, -⟩
  · exact absurd h0 herr
  · refine ⟨?_, fun j hj => responsesAreNotRead j s _ none hj⟩
    rw [respErr_respond]
    rfl

/-- Settles O28: the error of a command or a micro-operation is never the index check's, since the width of
a key is checked before its value. -/
theorem invalidIndexUnreachable : Obligations.InvalidIndexUnreachable := by
  unfold Obligations.InvalidIndexUnreachable
  refine fun i s t h => ⟨fun hc r hr => ?command, fun hc n => ?micro⟩
  case command =>
    rcases exec_command_response hc h hr with h0 | ⟨e, -, rfl, he⟩
    · rw [h0]
      decide
    · rw [respErr_respond]
      exact code_ne_of_ne_invalidIndex he
  case micro =>
    rcases exec_micro_cases hc h with ⟨u, rfl, hu⟩ | ⟨j, v, -, -, rfl⟩ | ⟨k, v, -, -, rfl⟩
    · simpa using hu n
    · simp
    · simp

/-- Settles O57, by the first check that fails. -/
theorem constructionChecksInOrder : Obligations.ConstructionChecksInOrder := by
  unfold Obligations.ConstructionChecksInOrder
  refine fun r => ⟨construct_notAnEngine, ?widths, ?hashWidth, ?hashMode, ?pass⟩
  case widths =>
    intro hv hzero
    obtain ⟨v, hv⟩ := eq_variantCode_of_ne_three hv
    obtain ⟨g, w, hw⟩ := checkWidths_error hzero
    exact ⟨g, w, construct_widths_error hv hw⟩
  case hashWidth =>
    intro hv hb hs hn hk
    obtain ⟨v, hv, hne⟩ := eq_variantCode_of_hashed hv
    exact ⟨_, _, construct_hash_error hv (checkWidths_ok hb hs hn) (checkHash_width_error hne hk)⟩
  case hashMode =>
    intro hv hb hs hk hkn hm
    obtain ⟨v, hv, hne⟩ := eq_variantCode_of_hashed hv
    exact construct_hash_error hv (checkWidths_ok hb hs (hk.trans hkn)) (checkHash_mode_error hne hk hkn hm)
  case pass =>
    rintro cfg rfl hl
    exact construct_configRecord hl

/-- Settles O7: with nothing issued the step waits, and a request that selects no operation is refused. -/
theorem stepWaitsOrRefuses : Obligations.StepWaitsOrRefuses := by
  unfold Obligations.StepWaitsOrRefuses
  exact ⟨fun _ hp => step_of_pending_nil hp, fun _ _ _ _ hp hd => step_refused_of_decode_error hp hd⟩

end Sys2Proof.Machine

/-! PROOFS of the statements of spec/70_reset_and_hazards.md: `init(CFG)` and its invariant, its first prediction, and that RESET
leads back to it. After RESET only the answer and the micro-operation view tell the engine from a fresh one; a command
overwrites the first and carries the second along unread, so runs of commands agree. -/

namespace Sys2Proof.Machine

/-! ### The newly constructed engine (R170) -/

@[simp] theorem init_cfg (cfg : Config) : (State.init cfg).cfg = cfg := rfl

theorem init_bhr_of_ne_sag {cfg : Config} (h : cfg.variant ≠ .sag) : (State.init cfg).bhr = zeros cfg.histW := by
  cases hv : cfg.variant
  · simp [State.init, hv]
  · simp [State.init, hv]
  · exact absurd hv h

theorem init_bhr_sag {cfg : Config} (h : cfg.variant = .sag) : (State.init cfg).bhr = [] := by simp [State.init, h]

theorem init_shaped (cfg : Config) : (State.init cfg).Shaped := by
  unfold State.Shaped
  cases hv : cfg.variant <;> simp only [init_cfg, hv]
  · exact ⟨by simp [init_bhr_of_ne_sag, hv], rfl, wf_nil _ _, rfl⟩
  · exact ⟨by simp [init_bhr_of_ne_sag, hv], rfl, rfl, wf_nil _ _⟩
  · exact ⟨init_bhr_sag hv, wf_nil _ _, wf_nil _ _, rfl⟩

theorem init_inv {cfg : Config} (h : cfg.Legal) : (State.init cfg).Inv := ⟨h, init_shaped cfg, List.mem_cons_self⟩

@[simp] theorem init_table (cfg : Config) : (State.init cfg).table = [] := by
  cases hv : cfg.variant
  · exact table_gag hv
  · exact table_gas hv
  · exact table_sag hv

@[simp] theorem init_readSlot (cfg : Config) (j : Nat) : (State.init cfg).readSlot j = zeros cfg.ctrW := by
  simp [State.readSlot]

@[simp] theorem init_readHist (cfg : Config) (r : Nat) : (State.init cfg).readHist r = zeros cfg.histW := by
  by_cases hv : cfg.variant = .sag
  · exact readHist_sag hv r
  · rw [readHist_of_ne_sag hv, init_bhr_of_ne_sag hv]

/-- R98: the counter that holds ZERO predicts NOT_TAKEN, at every width. -/
theorem valueClass_zeros (w : Nat) : valueClass (zeros w) = .notTaken := by
  rw [valueClass_notTaken_iff, toNumber_zeros]
  exact Nat.two_pow_pos _

/-! ### RESET -/

/-- What RESET clears is all that tells a shaped engine from a fresh one: the storage its variant lacks is empty in both. -/
theorem clear_eq_init {s : State} (hs : s.Shaped) :
    s.clear = { State.init s.cfg with pending := s.pending, resp := s.resp, mon := s.mon, uop := s.uop } := by
  unfold State.Shaped at hs
  cases hv : s.cfg.variant <;> simp only [hv] at hs
  · obtain ⟨-, hpsbhr, -, hpspht⟩ := hs
    simp [State.clear, State.init, hv, hpsbhr, hpspht]
  · obtain ⟨-, hpsbhr, hpht, -⟩ := hs
    simp [State.clear, State.init, hv, hpsbhr, hpht]
  · obtain ⟨hbhr, -, -, hpspht⟩ := hs
    simp [State.clear, State.init, hv, hbhr, hpspht]

theorem exec_reset_eq_init {s : State} (hs : s.Shaped) :
    exec .reset s = .next { State.init s.cfg with pending := s.pending, resp := some 0b000#3, uop := s.uop } := by
  rw [exec, execReset, clear_eq_init hs, State.answer, respond_completed]
  rfl

theorem clear_giveUop (s : State) (w : UopResult) : (s.giveUop w).clear = s.clear.giveUop w := by
  cases hv : s.cfg.variant <;> simp [State.clear, State.giveUop, hv]

/-! ### Commands carry the micro-operation view along (R68) -/

theorem exec_predict_giveUop {s : State} (hi : s.Inv) (a : Bits) (w : UopResult) :
    exec (.predict a) (s.giveUop w) = mapNext (State.giveUop · w) (exec (.predict a) s) := by
  have hiw : (s.giveUop w).Inv := hi
  by_cases ha : a.length = s.cfg.addrW
  · rw [exec_predict_ok hi ha, exec_predict_ok hiw ha]
    rfl
  · rw [exec_predict_badLength ha, exec_predict_badLength (s := s.giveUop w) ha]
    rfl

theorem exec_update_giveUop {s : State} (hi : s.Inv) (a : Bits) (o : BranchResult) (w : UopResult) :
    exec (.update a o) (s.giveUop w) = mapNext (State.giveUop · w) (exec (.update a o) s) := by
  have hiw : (s.giveUop w).Inv := hi
  by_cases ha : a.length = s.cfg.addrW
  · have hslot : (s.giveUop w).stepSlot a o = (s.stepSlot a o).giveUop w := writeSlot_giveUop ..
    rw [exec_update_ok hi ha, exec_update_ok hiw ha, hslot, shiftSet_giveUop]
    rfl
  · rw [exec_update_badLength ha, exec_update_badLength (s := s.giveUop w) ha]
    rfl

/-- A command neither reads nor writes what the last micro-operation gave. -/
theorem exec_command_giveUop {i : Instr} (hc : i.isCommand = true) {s : State} (hi : s.Inv) (w : UopResult) :
    exec i (s.giveUop w) = mapNext (State.giveUop · w) (exec i s) := by
  rcases (isCommand_iff i).mp hc with ⟨a, rfl⟩ | ⟨a, o, rfl⟩ | rfl | rfl
  · exact exec_predict_giveUop hi a w
  · exact exec_update_giveUop hi a o w
  · rfl
  · rw [exec, execReset, clear_giveUop]
    rfl

/-! ### Runs of commands -/

/-- A run of commands goes on, and leaves the micro-operation view it started with. -/
theorem run_commands_giveUop {s : State} (hi : s.Inv) {rs : List Request} (hrs : ∀ r ∈ rs, r.isCommand = true) {n : Nat}
    (hn : n ≤ rs.length) :
    ∃ v, Host.Core.run core n (s.setPending rs) = .next v ∧
      ∀ w, Host.Core.run core n ((s.giveUop w).setPending rs) = .next (v.giveUop w) := by
  induction rs generalizing s n with
  | nil =>
    obtain rfl : n = 0 := Nat.le_zero.mp hn
    exact ⟨_, rfl, fun _ => rfl⟩
  | cons r rest ih =>
    cases n with
    | zero => exact ⟨_, rfl, fun _ => rfl⟩
    | succ n =>
      obtain ⟨hr, hrest⟩ := List.forall_mem_cons.mp hrs
      obtain ⟨i, hd, hc⟩ := decode_command_request hr
      obtain ⟨t, ht⟩ := exec_command_completes hc s
      obtain ⟨v, hv, hvw⟩ := ih (exec_keeps_inv hi ht) hrest (Nat.le_of_succ_le_succ hn)
      have hstep : step (s.setPending (r :: rest)) = .next (t.setPending rest) := by
        rw [step_setPending_of_decode hd, ht, mapNext]
      have hstepw (w : UopResult) :
          step ((s.giveUop w).setPending (r :: rest)) = .next ((t.giveUop w).setPending rest) := by
        rw [step_setPending_of_decode hd, exec_command_giveUop hc hi, ht, mapNext, mapNext]
      exact ⟨v, (run_succ_of_step n hstep).trans hv, fun w => (run_succ_of_step n (hstepw w)).trans (hvw w)⟩

/-- R28: the answer given before a run of commands does not show after its first command. -/
theorem run_command_setAnswer {r : Request} (hr : r.isCommand = true) (s : State) (x : Option (BitVec 3))
    (m : Option Snapshot) (rest : List Request) (n : Nat) :
    Host.Core.run core (n + 1) ((s.setAnswer x m).setPending (r :: rest)) =
      Host.Core.run core (n + 1) (s.setPending (r :: rest)) := by
  obtain ⟨i, hd, hc⟩ := decode_command_request hr
  obtain ⟨t, ht⟩ := exec_command_completes hc s
  have hstep (q : State) (hq : exec i q = .next t) : step (q.setPending (r :: rest)) = .next (t.setPending rest) := by
    rw [step_setPending_of_decode hd, hq, mapNext]
  have hanswer : exec i (s.setAnswer x m) = .next t := (responsesAreNotRead i s x m hc).trans ht
  rw [run_succ_of_step n (hstep _ hanswer), run_succ_of_step n (hstep s ht)]

/-! ### The obligations -/

/-- Settles O55: the cleared storage of every variant has its shape, and no response has been given. -/
theorem initialStatesSatisfyInv : Obligations.InitialStatesSatisfyInv := by
  unfold Obligations.InitialStatesSatisfyInv
  have helaborated : Config.elaborated.Legal := by decide
  exact ⟨fun _ => init_inv, init_inv helaborated⟩

/-- Settles O56: every register and slot reads ZERO, and a counter at ZERO is in the lower half. -/
theorem initIsZeroAndPredictsNotTaken : Obligations.InitIsZeroAndPredictsNotTaken := by
  unfold Obligations.InitIsZeroAndPredictsNotTaken
  intro cfg a hl ha
  refine ⟨rfl, fun r _ => init_readHist cfg r, init_readSlot cfg, ?_⟩
  rw [exec, execPredict_eq (init_inv hl) ha, init_readSlot, valueClass_zeros, outcomeBit, State.answer, respond_completed]

/-- Settles O24: RESET clears what the variant has, and what it lacks is empty already. -/
theorem resetEqualsConstruction : Obligations.ResetEqualsConstruction := by
  unfold Obligations.ResetEqualsConstruction
  intro s hi
  obtain ⟨-, hs, -⟩ := hi
  exact exec_reset_eq_init hs

/-- Settles O25: after RESET the first command overwrites the answer, and no command reads or writes the micro-operation view,
which is all in which the run can differ from that of the fresh engine. -/
theorem runsAfterResetMatchFreshRuns : Obligations.RunsAfterResetMatchFreshRuns := by
  unfold Obligations.RunsAfterResetMatchFreshRuns
  intro s a t rs n hi hrs hpos hn
  have ⟨hl, hs, _⟩ := hi
  obtain ⟨m, rfl⟩ : ∃ m, n = m + 1 := Nat.exists_eq_add_one.mpr hpos
  obtain ⟨r, rest, rfl⟩ := List.exists_cons_of_length_pos (hpos.trans_le hn)
  have hreset : step (s.setPending (.command (cmdWord 0b11#2 t) a :: r :: rest)) =
      .next ((State.setAnswer { State.init s.cfg with uop := s.uop } (some 0b000#3) none).setPending (r :: rest)) := by
    rw [step_setPending_of_decode (decode_op_reset (by cases t <;> rfl) a), exec_reset_eq_init hs]
    rfl
  have hfirst := run_command_setAnswer (hrs r List.mem_cons_self) { State.init s.cfg with uop := s.uop } (some 0b000#3) none
    rest m
  obtain ⟨v, hv, hvw⟩ := run_commands_giveUop (init_inv hl) hrs hn
  obtain ⟨u, hu, hsame⟩ : ∃ u,
      Host.Core.run core (m + 1) (State.setPending { State.init s.cfg with uop := s.uop } (r :: rest)) = .next u ∧
        v.SameEngine u ∧ u.pending = v.pending ∧ u.resp = v.resp ∧ u.mon = v.mon := by
    cases s.uop with
    | none => exact ⟨v, hv, ⟨rfl, rfl, rfl, rfl, rfl⟩, rfl, rfl, rfl⟩
    | some w => exact ⟨v.giveUop w, hvw w, ⟨rfl, rfl, rfl, rfl, rfl⟩, rfl, rfl, rfl⟩
  exact ⟨u, v, ((run_succ_of_step _ hreset).trans hfirst).trans hu, hv, hsame⟩

end Sys2Proof.Machine
